-- ==== Sys2Proof/Word.lean ====
section
/-! DEFINITION. The unsigned value types of the block (00_scope.md R12). -/

namespace Sys2Proof

/-- `u8` (R12): the width of `ACC`, of a table entry, of `IMM8` and of `POLY` and `INIT`. -/
abbrev Byte := BitVec 8

/-- `u16` (R12): one command word (R60). -/
abbrev CmdWord := BitVec 16

/-- `u64` (R12): the width of `RESULT` (R23). -/
abbrev ResultWord := BitVec 64

end Sys2Proof
end

