-- ==== Sys2Proof/Syntax.lean ====
section
/-! DEFINITION. The commands of the block: one constructor per row of spec/opcode_table.json
(30_encoding.md R63). The one operand of a command is its `IMM8` field, an unsigned byte (R62). -/

namespace Sys2Proof

/-- A legal command (30_encoding.md R63). -/
inductive Instr where
  /-- INIT: start a fresh checksum (43_accumulator.md R110). -/
  | init
  /-- UPDB b: fold byte b into `ACC` with the bitwise step (40_bitwise_engine.md R83). -/
  | updb (b : Byte)
  /-- UPDT b: fold byte b into `ACC` with the table step (41_lookup_table_engine.md R91). -/
  | updt (b : Byte)
  /-- FIN: publish the checksum (43_accumulator.md R111). -/
  | fin
  /-- GEN g: fill the table store (42_table_generator.md R101). -/
  | gen (g : Byte)
  /-- TRD i: read one table entry (42_table_generator.md R103). -/
  | trd (i : Byte)
  deriving DecidableEq, Repr

end Sys2Proof
end

