-- ==== Sys2Proof/WellFormed.lean ====
section
/-! DEFINITION. What the spec asks of a command word before it is a command: the predicate `legal`
of 30_encoding.md R64. A term of `Instr` carries its operand as a `u8`, so every term is well
formed; the checks are on words, and each is named so that a test can show the word it refuses. -/

namespace Sys2Proof

/-- The check on `OP` = `w[15:12]` for the commands with an operand: UPDB, UPDT, GEN or TRD (R63). -/
def opTakesByte (w : CmdWord) : Bool :=
  let op := w.extractLsb' 12 4
  op == 0x2#4 || op == 0x3#4 || op == 0x5#4 || op == 0x6#4

/-- The check on `RSV` = `w[11:8]`: 0b0000 in every legal command (R61). -/
def rsvClear (w : CmdWord) : Bool :=
  w.extractLsb' 8 4 == 0x0#4

/-- `legal(w)` (R64): a word is legal exactly when it matches one row of the opcode map. -/
def legal (w : CmdWord) : Bool :=
  w == 0x1000#16 || w == 0x4000#16 || (rsvClear w && opTakesByte w)

/-- Every term of `Instr` is a legal command: INIT and FIN have no operand to get wrong, and every
byte is a legal operand of the other four (R62, R63). -/
def Instr.wellFormed : Instr → Bool
  | .init => true
  | .updb _ => true
  | .updt _ => true
  | .fin => true
  | .gen _ => true
  | .trd _ => true

end Sys2Proof
end

