-- ==== Sys2Proof/Decode.lean ====
section
/-! DEFINITION. The decoder of 30_encoding.md R68, total on all 65536 words, and its inverse, the
encoder of R69. -/

namespace Sys2Proof

/-- `OP` = `w[15:12]` (R61). -/
def opField (w : CmdWord) : BitVec 4 := w.extractLsb' 12 4

/-- `RSV` = `w[11:8]` (R61). -/
def rsvField (w : CmdWord) : BitVec 4 := w.extractLsb' 8 4

/-- `IMM8` = `w[7:0]`, read as an unsigned byte with no shift, scale or sign extension (R62). -/
def imm8Field (w : CmdWord) : Byte := w.extractLsb' 0 8

/-- What the decoder answers: a command, or ILLEGAL(w) (R68). -/
inductive Decoded where
  /-- The word is legal and selects this command. -/
  | command (i : Instr)
  /-- ILLEGAL(w): the word raises IllegalCommand(w) when it is executed (60_exceptions.md R130). -/
  | illegal (w : CmdWord)
  deriving DecidableEq, Repr

/-- `decode(w)`, in the order of R68's own cases. -/
def decode (w : CmdWord) : Decoded :=
  if w = 0x1000#16 then .command .init
  else if w = 0x4000#16 then .command .fin
  else if rsvField w ≠ 0x0#4 then .illegal w
  else if opField w = 0x2#4 then .command (.updb (imm8Field w))
  else if opField w = 0x3#4 then .command (.updt (imm8Field w))
  else if opField w = 0x5#4 then .command (.gen (imm8Field w))
  else if opField w = 0x6#4 then .command (.trd (imm8Field w))
  else .illegal w

/-- The command a decoding holds, if it is one. -/
def Decoded.command? : Decoded → Option Instr
  | .command i => some i
  | .illegal _ => none

/-- `enc(c)` (R69). -/
def encode : Instr → CmdWord
  | .init => 0x1000#16
  | .updb b => 0x2000#16 ||| b.setWidth 16
  | .updt b => 0x3000#16 ||| b.setWidth 16
  | .fin => 0x4000#16
  | .gen g => 0x5000#16 ||| g.setWidth 16
  | .trd i => 0x6000#16 ||| i.setWidth 16

/-- The command word whose bits, numbered as spec/opcode_table.json numbers them, are the low
`nbits` bits of `w`. Every command is one word accepted whole (R60), so no byte order enters
(log 13). -/
def tableWord (nbits w : Nat) : CmdWord := BitVec.ofNat 16 (w % 2 ^ nbits)

/-- The instruction the decoder reads from a word given by the opcode table's numbering. -/
def decodeTableWord (nbits w : Nat) : Option Instr := (decode (tableWord nbits w)).command?

end Sys2Proof
end

