-- ==== Sys2Proof/Config.lean ====
section
/-! DEFINITION. The parameters of an instance (00_scope.md R8, R9; 10_state.md R38). They are
configuration, not state: no command writes them and reset does not change them. -/

namespace Sys2Proof

/-- `RST_POLARITY` (R8). No rule depends on it: the model speaks of `RST` asserted or not
asserted (log 2). -/
inductive RstPolarity where
  | activeHigh
  | activeLow
  deriving DecidableEq, Repr, Inhabited

/-- The latencies `LAT_*` (R8, 70_reset_and_hazards.md R160), each a number of clock cycles of at
least 1, held as the cycles beyond the first. No rule depends on them (log 2). -/
structure Latencies where
  extraInit : Nat
  extraUpdb : Nat
  extraUpdt : Nat
  extraFin : Nat
  extraGen : Nat
  extraTrd : Nat
  extraIllegal : Nat
  deriving DecidableEq, Repr, Inhabited

/-- The parameters of one instance (R8). Every value of every field is legal. -/
structure Config where
  /-- `POLY`: every 8-bit value is legal (R8, R29). -/
  poly : Byte
  /-- `INIT`: every 8-bit value is legal (R8, R29). -/
  init : Byte
  /-- `TABLE_RESET`: any 256 bytes (R8; 92_eei_decisions.md D4). -/
  tableReset : Vector Byte 256
  /-- `RST_POLARITY` (R8). -/
  rstPolarity : RstPolarity
  /-- `LAT_INIT` to `LAT_ILLEGAL` (R8). -/
  latencies : Latencies
  deriving DecidableEq, Repr, Inhabited

/-- `TABLE_RESET[i]` (R37). -/
def Config.tableResetAt (c : Config) (i : Byte) : Byte := c.tableReset[i.toNat]'i.isLt

/-- The parameters of THE instance `exec` and `step` are of. Nothing is known of them, so whatever
is proved holds for every `POLY`, `INIT` and `TABLE_RESET` (log 1; 93_implementation_defined.md U2:
claims quantify over `TABLE_RESET` or take a named premise). -/
opaque Config.fixed : Config

/-- The free value of a host read that the spec leaves undefined, one for each draw
(93_implementation_defined.md U6; log 6). -/
opaque Config.freeRead : Nat → ResultWord

end Sys2Proof
end

