-- ==== Sys2Proof/Machine/State.lean ====
section
/-! DEFINITION. The state of one instance (10_state.md R20, R28, R36, R38), the value of every field
after reset (R37), and the two ways a step could stop. -/

namespace Sys2Proof.Machine

/-- The table store `TABLE` (20_memory.md R40) as pairs of an index and its byte, in one canonical
form (`Memory.wf`): indices strictly rising and below 256, and only entries that differ from what an
index that is not listed reads as, `TABLE_RESET[i]` (log 10). -/
abbrev Memory := List Host.Cell

/-- What happens in one step, seen from the command port and the reset input (log 4). -/
inductive Tick where
  /-- `RST` is not asserted. If no command is in flight the block accepts the one the host offers;
  then the command in flight completes (10_state.md R33, R36). -/
  | run
  /-- `RST` is not asserted. If no command is in flight the block accepts the one the host offers.
  Nothing completes: a command in flight stays in flight (R36, 70_reset_and_hazards.md R160). -/
  | accept
  /-- `RST` is asserted (70_reset_and_hazards.md R150). -/
  | reset
  deriving DecidableEq, Repr

/-- The state of the machine: first what the spec gives the block, then the world outside it as
plain data. -/
structure State where
  /-- `ACC`, the accumulator (R21). -/
  acc : Byte
  /-- `RESULT`, the result register (R23). -/
  result : ResultWord
  /-- `STATUS.ERR`, the sticky error flag (R25, R26). `STATUS[7:1]` is hardwired 0 (log 18). -/
  err : Bool
  /-- `TABLE`, the table store (20_memory.md R40). -/
  table : Memory
  /-- `cix`, the number of commands completed since the last reset (R28). -/
  cix : Nat
  /-- The in-flight command: accepted and not completed (R20, R36; log 5). -/
  inFlight : Option CmdWord
  /-- Whether `RST` is asserted (R31, R34). -/
  rst : Bool
  /-- The model's own: the words the host has still to issue, in order. While there is one,
  `CMD_VALID` is 1 and the first of them is on `CMD` (R31, R33; log 3). -/
  commands : List CmdWord
  /-- The model's own: what happens in the coming steps; past the end every step runs (log 4). -/
  ticks : List Tick
  /-- The model's own: how many free values host reads have drawn (log 6). -/
  draws : Nat
  deriving DecidableEq, Repr

/-- The ways the machine stops with a fault: there is none. No legal command raises an exception
(60_exceptions.md R130), and the one exception, IllegalCommand, is a next state (R131). Nobody
raises a fault; that is neither safe nor unsafe, since nothing is cut short (log 9). -/
inductive Fault where
  deriving DecidableEq, Repr

/-- The ways a step is refused. -/
inductive Refusal where
  /-- Raised by the dispatch alone, for an instruction that has no meaning yet (safe). No arm of
  this model raises it (log 9). -/
  | notModelled (mnemonic : String)
  deriving DecidableEq, Repr

/-- The state right after the reset of an instance with parameters `cfg` (10_state.md R37,
70_reset_and_hazards.md R151): quiescent, every piece of state at its reset value. The model's own
fields are empty (log 12). -/
def State.resetOf (cfg : Config) : State where
  acc := cfg.init
  result := 0
  err := false
  table := []
  cix := 0
  inFlight := none
  rst := false
  commands := []
  ticks := []
  draws := 0

/-- The machine right after reset (10_state.md R37). -/
def State.reset : State := State.resetOf Config.fixed

end Sys2Proof.Machine
end

