-- ==== Sys2Proof/Machine/Flags.lean ====
section
/-! DEFINITION. The one flag of the block, `STATUS.ERR` (10_state.md R25 to R27), and the `STATUS`
register it stands in. -/

namespace Sys2Proof.Machine

/-- `STATUS[7:0]` (R25): bit 0 is `ERR`, bits 7:1 are hardwired 0. -/
def State.status (s : State) : Byte := (BitVec.ofBool s.err).setWidth 8

/-- `STATUS.ERR <- 1` (60_exceptions.md R131). Nothing but reset clears the flag (R26). -/
def State.setErr (s : State) : State := { s with err := true }

end Sys2Proof.Machine
end

