-- ==== Sys2Proof/Machine/Operands.lean ====
section
/-! DEFINITION. The operand forms of the commands: the byte or index a command computes from
`ACC` and `IMM8`, and the widening of a byte written to `RESULT` (30_encoding.md R62). -/

namespace Sys2Proof.Machine

/-- `ACC ^ b`, the byte UPDB steps (40_bitwise_engine.md R83) and the index UPDT reads
(41_lookup_table_engine.md R91), from the accumulator before the command. -/
def foldOperand (acc b : Byte) : Byte := acc ^^^ b

/-- `zext_64(v)` (00_scope.md R12). -/
def zext64 (v : Byte) : ResultWord := v.setWidth 64

end Sys2Proof.Machine
end

