-- ==== Sys2Proof/Machine/Ops.lean ====
section
/-! DEFINITION. The operations every command is built from: the table store, the registers,
completion, the one exception, the command port and reset. -/

namespace Sys2Proof.Machine

/-- What `MemRead(i, 1)` returns (20_memory.md R40); an index that is not listed reads as
`TABLE_RESET[i]` (10_state.md R37; log 10). -/
def Memory.read (cfg : Config) : Memory → Byte → Byte
  | [], i => cfg.tableResetAt i
  | (a, v) :: m, i => if a = i.toNat then v else Memory.read cfg m i

/-- List index `a` with byte `v`, in place of what was listed at `a`, keeping the indices rising. -/
def Memory.insert (a : Nat) (v : Byte) : Memory → Memory
  | [] => [(a, v)]
  | (b, w) :: m =>
    if a < b then (a, v) :: (b, w) :: m
    else if a = b then (a, v) :: m
    else (b, w) :: Memory.insert a v m

/-- Take index `a` off the list. -/
def Memory.erase (a : Nat) : Memory → Memory
  | [] => []
  | (b, w) :: m => if a = b then Memory.erase a m else (b, w) :: Memory.erase a m

/-- `MemWrite(i, 1, v)` (20_memory.md R40): index i reads as v, no other entry changes. A byte equal
to what an unlisted index reads as is not listed (log 10). -/
def Memory.write (cfg : Config) (m : Memory) (i v : Byte) : Memory :=
  if v = cfg.tableResetAt i then Memory.erase i.toNat m else Memory.insert i.toNat v m

/-- The canonical form of the table store (log 10). -/
def Memory.wf (cfg : Config) : Memory → Bool
  | [] => true
  | (a, v) :: m =>
    decide (a < 256) && decide (v ≠ cfg.tableResetAt (BitVec.ofNat 8 a)) &&
      m.all (fun c => decide (a < c.1)) && Memory.wf cfg m

/-- The indices 0, 1, ..., 255, in that order (00_scope.md R14). -/
def allIndices : List Byte := (List.range 256).map (BitVec.ofNat 8)

/-- `for i in 0..255: MemWrite(i, 1, f i)` (42_table_generator.md R101). Proofs use `Memory.read_fill`
and `Memory.wf_fill` and do not unfold the 256 writes. -/
@[irreducible] def Memory.fill (cfg : Config) (f : Byte → Byte) (m : Memory) : Memory :=
  allIndices.foldl (fun m i => m.write cfg i (f i)) m

/-- `ACC <- v`. -/
def State.setAcc (s : State) (v : Byte) : State := { s with acc := v }

/-- `RESULT <- v`, all 64 bits at once (20_memory.md R47). -/
def State.setResult (s : State) (v : ResultWord) : State := { s with result := v }

/-- Replace the content of the table store. -/
def State.setTable (s : State) (m : Memory) : State := { s with table := m }

/-- A command completes (10_state.md R36): `cix` increases by 1 and nothing is in flight. -/
def State.complete (s : State) : State := { s with cix := s.cix + 1, inFlight := none }

/-- `raise IllegalCommand(w)` (60_exceptions.md R131): `STATUS.ERR <- 1` and nothing else, and the
word is consumed like any other command. The block records neither the word nor its position. It
saves no state and jumps nowhere (R137). There is no return command to stand beside it (R138): the
next command runs normally. -/
def State.raiseIllegalCommand (_w : CmdWord) (s : State) : State := s.setErr.complete

/-- What happens in the coming step (log 4). -/
def State.tick (s : State) : Tick := s.ticks.headD .run

/-- The coming step's tick is used up. -/
def State.dropTick (s : State) : State := { s with ticks := s.ticks.tail }

/-- `RST` is not asserted (any more); the state does not change (70_reset_and_hazards.md R151). -/
def State.releaseReset (s : State) : State := { s with rst := false }

/-- The block accepts the offered command, if there is one and none is in flight (10_state.md R33,
R36): the word is taken exactly once. The caller has seen to it that `RST` is not asserted. -/
def State.accept (s : State) : State :=
  match s.inFlight, s.commands with
  | none, w :: ws => { s with inFlight := some w, commands := ws }
  | _, _ => s

/-- Reset (70_reset_and_hazards.md R150), while `RST` is asserted: the in-flight command is abandoned
with none of its writes performed, and every piece of the block's state takes its value of
10_state.md R37. What the host has still to issue is the host's and stays (R151; log 11). -/
def State.resetBlock (cfg : Config) (s : State) : State :=
  { s with
    acc := cfg.init
    result := 0
    err := false
    table := []
    cix := 0
    inFlight := none
    rst := true }

end Sys2Proof.Machine
end

