-- ==== Sys2Proof/Machine/Accumulator.lean ====
section
/-! DEFINITION. The accumulator family: INIT and FIN (43_accumulator.md). -/

namespace Sys2Proof.Machine

/-- INIT on an instance with parameters `cfg` (R110): `ACC <- INIT`. -/
def initEffect (cfg : Config) (s : State) : State := (s.setAcc cfg.init).complete

/-- INIT (43_accumulator.md R110). -/
def execInit (s : State) : Host.Outcome State Fault Refusal := .next (initEffect Config.fixed s)

/-- FIN (R111): `RESULT <- zext_64(ACC)`; `ACC` stays. -/
def finEffect (s : State) : State := (s.setResult (zext64 s.acc)).complete

/-- FIN (43_accumulator.md R111). -/
def execFin (s : State) : Host.Outcome State Fault Refusal := .next (finEffect s)

end Sys2Proof.Machine
end

