-- ==== Sys2Proof/Machine/Crc.lean ====
section
/-! DEFINITION. The functions defined once and used by every family (00_scope.md R15): `shift1`,
`step8`, `bitwise`, `tablecrc` and `gen`. -/

namespace Sys2Proof.Machine

/-- `shift1(c, p)` (40_bitwise_engine.md R80). -/
def shift1 (c p : Byte) : Byte :=
  if c.getLsbD 7 then (c <<< 1) ^^^ p else c <<< 1

/-- `shift1` with `p`, n times. -/
def shiftTimes : Nat → Byte → Byte → Byte
  | 0, c, _ => c
  | n + 1, c, p => shiftTimes n (shift1 c p) p

/-- `step8(c, p)` (R81). -/
def step8 (c p : Byte) : Byte := shiftTimes 8 c p

/-- `bitwise(p, v, D)`, the bitwise engine (R82). -/
def bitwise (p v : Byte) : List Byte → Byte
  | [] => v
  | b :: ds => bitwise p (step8 (v ^^^ b) p) ds

/-- `tablecrc(v, T, D)`, the table engine (41_lookup_table_engine.md R90); a 256-entry table is a
function of its index. -/
def tablecrc (v : Byte) (t : Byte → Byte) : List Byte → Byte
  | [] => v
  | b :: ds => tablecrc (t (v ^^^ b)) t ds

/-- `gen(p, g)[i]`, the generated table (42_table_generator.md R100). -/
def gen (p g i : Byte) : Byte := bitwise p g [i]

end Sys2Proof.Machine
end

