-- ==== Sys2Proof/Machine/Bitwise.lean ====
section
/-! DEFINITION. The bitwise engine's command: UPDB (40_bitwise_engine.md). -/

namespace Sys2Proof.Machine

/-- UPDB b on an instance with parameters `cfg` (R83): `ACC <- step8(ACC ^ b, POLY)`. -/
def updbEffect (cfg : Config) (b : Byte) (s : State) : State :=
  (s.setAcc (step8 (foldOperand s.acc b) cfg.poly)).complete

/-- UPDB (40_bitwise_engine.md R83). -/
def execUpdb (b : Byte) (s : State) : Host.Outcome State Fault Refusal :=
  .next (updbEffect Config.fixed b s)

end Sys2Proof.Machine
end

