-- ==== Sys2Proof/Machine/Generator.lean ====
section
/-! DEFINITION. The table generator's commands: GEN and TRD (42_table_generator.md). -/

namespace Sys2Proof.Machine

/-- GEN g on an instance with parameters `cfg` (R101): for i in 0..255,
`MemWrite(i, 1, step8(g ^ i, POLY))`, as one indivisible step. -/
def genEffect (cfg : Config) (g : Byte) (s : State) : State :=
  (s.setTable (s.table.fill cfg (fun i => step8 (g ^^^ i) cfg.poly))).complete

/-- GEN (42_table_generator.md R101). -/
def execGen (g : Byte) (s : State) : Host.Outcome State Fault Refusal :=
  .next (genEffect Config.fixed g s)

/-- TRD i on an instance with parameters `cfg` (R103): `RESULT <- zext_64(MemRead(i, 1))`. -/
def trdEffect (cfg : Config) (i : Byte) (s : State) : State :=
  (s.setResult (zext64 (s.table.read cfg i))).complete

/-- TRD (42_table_generator.md R103). -/
def execTrd (i : Byte) (s : State) : Host.Outcome State Fault Refusal :=
  .next (trdEffect Config.fixed i s)

end Sys2Proof.Machine
end

