-- ==== Sys2Proof/Machine/Lookup.lean ====
section
/-! DEFINITION. The lookup-table engine's command: UPDT (41_lookup_table_engine.md). -/

namespace Sys2Proof.Machine

/-- UPDT b on an instance with parameters `cfg` (R91): `ACC <- TABLE[ACC ^ b]`, whatever the table
holds (R92). -/
def updtEffect (cfg : Config) (b : Byte) (s : State) : State :=
  (s.setAcc (s.table.read cfg (foldOperand s.acc b))).complete

/-- UPDT (41_lookup_table_engine.md R91). -/
def execUpdt (b : Byte) (s : State) : Host.Outcome State Fault Refusal :=
  .next (updtEffect Config.fixed b s)

end Sys2Proof.Machine
end

