-- ==== Sys2Proof/Machine/Dispatch.lean ====
section
/-! DEFINITION. exec: one arm per constructor of Instr. -/

namespace Sys2Proof.Machine

/-- What executing a legal command does, its completion included (30_encoding.md R63, R68). -/
def exec (i : Instr) (s : State) : Host.Outcome State Fault Refusal :=
  match i with
  | .init => Sys2Proof.Machine.execInit s
  | .updb b => Sys2Proof.Machine.execUpdb b s
  | .updt b => Sys2Proof.Machine.execUpdt b s
  | .fin => Sys2Proof.Machine.execFin s
  | .gen g => Sys2Proof.Machine.execGen g s
  | .trd j => Sys2Proof.Machine.execTrd j s

end Sys2Proof.Machine
end

