-- ==== Sys2Proof/Machine/Run.lean ====
section
/-! DEFINITION. What a step does with a command word: run an accepted word, and complete the command
in flight. Also sequences of commands, for statements about `write` and one-shot `compute`. -/

namespace Sys2Proof.Machine

/-- The block executes `decode(w)` for an accepted word w (30_encoding.md R68); an illegal word raises
IllegalCommand(w) (60_exceptions.md R130). -/
def runWord (w : CmdWord) (s : State) : Host.Outcome State Fault Refusal :=
  match decode w with
  | .command i => exec i s
  | .illegal w => .next (s.raiseIllegalCommand w)

/-- Complete the command in flight. With none in flight and none offered the block holds its state
(60_exceptions.md R145; log 7). -/
def runInFlight (s : State) : Host.Outcome State Fault Refusal :=
  match s.inFlight with
  | some w => runWord w s
  | none => .next s

/-- The word that the coming step completes, if any: the one in flight, else the one offered, which a
step that is not a reset step takes after releasing a reset still shown asserted (log 11). -/
def State.wordToRun (s : State) : Option CmdWord :=
  match s.tick with
  | .run => s.accept.inFlight
  | .accept => none
  | .reset => none

/-- One step: reset, acceptance, or acceptance and completion, as the coming tick says (log 4). -/
def stepTick (s : State) : Host.Outcome State Fault Refusal :=
  match s.tick with
  | .reset => .next (s.dropTick.resetBlock Config.fixed)
  | .accept => .next s.dropTick.releaseReset.accept
  | .run => runInFlight s.dropTick.releaseReset.accept

/-- Offer `w` as the very next command and let the next step run it, with nothing in flight (log 8). -/
def State.offerNext (s : State) (w : CmdWord) : State :=
  { s with commands := w :: s.commands, ticks := .run :: s.ticks, inFlight := none }

/-- A sequence of command words, legal or not, one after another (00_scope.md R17, 20_memory.md R50). -/
def runWords : List CmdWord → State → Host.Outcome State Fault Refusal
  | [], s => .next s
  | w :: ws, s =>
    match runWord w s with
    | .next t => runWords ws t
    | .fault r => .fault r
    | .refused r => .refused r

/-- A sequence of commands, one after another (20_memory.md R50). -/
def execAll : List Instr → State → Host.Outcome State Fault Refusal
  | [], s => .next s
  | i :: is, s =>
    match exec i s with
    | .next t => execAll is t
    | .fault r => .fault r
    | .refused r => .refused r

end Sys2Proof.Machine
end

