-- ==== Sys2Proof/Machine/Step.lean ====
section
/-! DEFINITION. One step of the machine (00_scope.md R4: each command is one step). -/

namespace Sys2Proof.Machine

/-- One step (see `stepTick`). -/
def step (s : State) : Host.Outcome State Fault Refusal := stepTick s

/-- `s` with the word that spec/opcode_table.json numbers as `w` offered on the command port as the
very next command, which the next step accepts and runs (log 8). -/
def State.withFetchWord (s : State) (nbits w : Nat) : State := s.offerNext (tableWord nbits w)

end Sys2Proof.Machine
end

