-- ==== Sys2Proof/Machine/Pseudo.lean ====
section
/-! DEFINITION. The pseudo-instructions and their expansions (30_encoding.md R72): the source's
`write` and one-shot `compute` as sequences of commands (43_accumulator.md R112, R114). -/

namespace Sys2Proof.Machine

/-- A pseudo-instruction (R72). -/
inductive Pseudo where
  /-- `GEN0`: fill a valid table. -/
  | gen0
  /-- `WRB d0, ..., dn-1`: the source's `write` with the bitwise step. -/
  | wrb (ds : List Byte)
  /-- `WRT d0, ..., dn-1`: the source's `write` with the table step. -/
  | wrt (ds : List Byte)
  /-- `CRCB d0, ..., dn-1`: the source's one-shot `compute` with the bitwise step. -/
  | crcb (ds : List Byte)
  /-- `CRCT d0, ..., dn-1`: the source's one-shot `compute` with the table step. -/
  | crct (ds : List Byte)
  deriving DecidableEq, Repr

/-- The commands a pseudo-instruction stands for (R72). -/
def Pseudo.expand : Pseudo → List Instr
  | .gen0 => [.gen 0x00#8]
  | .wrb ds => ds.map .updb
  | .wrt ds => ds.map .updt
  | .crcb ds => .init :: (ds.map .updb ++ [.fin])
  | .crct ds => .init :: (ds.map .updt ++ [.fin])

end Sys2Proof.Machine
end

