-- ==== Sys2Proof/Machine/Assembler.lean ====
section
/-! DEFINITION. The assembler and the disassembler (30_encoding.md R70 to R72), on texts as lists of
characters. Conventions the spec leaves open are in logs 14, 15 and 16. -/

namespace Sys2Proof.Machine

/-- A text. -/
abbrev Text := List Char

/-- Why the assembler refuses a line (R71). -/
inductive AsmReason where
  /-- An unknown mnemonic. -/
  | unknownMnemonic
  /-- An operand on INIT or FIN, or on the pseudo-instruction GEN0. -/
  | unexpectedOperand
  /-- A missing operand on UPDB, UPDT, GEN or TRD, or on `.word`. -/
  | missingOperand
  /-- An operand outside 0..255, or outside 0..65535 on `.word`. -/
  | operandRange
  /-- More than one operand. -/
  | tooManyOperands
  /-- An operand that is no integer as R70 writes them (log 15). -/
  | notANumber
  deriving DecidableEq, Repr

/-- A refusal names the line, counted from 1 (R71). -/
structure AsmError where
  line : Nat
  reason : AsmReason
  deriving DecidableEq, Repr

/-- White space within a line (log 15). -/
def isBlank (c : Char) : Bool := c == ' ' || c == '\t' || c == '\r'

/-- A letter in upper case; any other character as it is. -/
def upperChar (c : Char) : Char :=
  if 97 ≤ c.toNat && c.toNat ≤ 122 then Char.ofNat (c.toNat - 32) else c

/-- The pieces of a text between the characters `p` holds of. -/
def splitAt (p : Char → Bool) : Text → List Text
  | [] => [[]]
  | c :: cs =>
    match splitAt p cs with
    | [] => [[c]]
    | t :: ts => if p c then [] :: t :: ts else (c :: t) :: ts

/-- The non-empty pieces of a text between white space. -/
def tokens (l : Text) : List Text := (splitAt isBlank l).filter (fun t => !t.isEmpty)

/-- The value of a digit, decimal or hexadecimal in either case (log 15). -/
def digitValue (c : Char) : Option Nat :=
  if 48 ≤ c.toNat && c.toNat ≤ 57 then some (c.toNat - 48)
  else if 65 ≤ c.toNat && c.toNat ≤ 70 then some (c.toNat - 55)
  else if 97 ≤ c.toNat && c.toNat ≤ 102 then some (c.toNat - 87)
  else none

/-- The number digits write in a base, after a prefix of value `n`. -/
def readDigits (base n : Nat) : Text → Option Nat
  | [] => some n
  | c :: cs =>
    match digitValue c with
    | some d => if d < base then readDigits base (n * base + d) cs else none
    | none => none

/-- An integer in decimal, or in hexadecimal with `0x` (R70). -/
def readNumber : Text → Option Nat
  | [] => none
  | '0' :: 'x' :: c :: cs => readDigits 16 0 (c :: cs)
  | c :: cs => readDigits 10 0 (c :: cs)

/-- An operand that must be at most `max`. -/
def readUpTo (max : Nat) (t : Text) : Except AsmReason Nat :=
  match readNumber t with
  | some n => if n ≤ max then .ok n else .error .operandRange
  | none => .error .notANumber

/-- An operand 0..255 (R70). -/
def readByte (t : Text) : Except AsmReason Byte := (readUpTo 255 t).map (BitVec.ofNat 8)

/-- What stands after the mnemonic: the groups between commas, each cut at white space. -/
def operandGroups (rest : Text) : List (List Text) :=
  if rest.all isBlank then [] else (splitAt (· == ',') rest).map tokens

/-- No operand. -/
def noOperand (is : List Instr) : List (List Text) → Except AsmReason (List CmdWord)
  | [] => .ok (is.map encode)
  | _ => .error .unexpectedOperand

/-- Exactly one operand, at most `max`. -/
def oneOperand (max : Nat) : List (List Text) → Except AsmReason Nat
  | [] => .error .missingOperand
  | [[t]] => readUpTo max t
  | _ => .error .tooManyOperands

/-- A command with one byte operand. -/
def byteCommand (f : Byte → Instr) (gs : List (List Text)) : Except AsmReason (List CmdWord) :=
  (oneOperand 255 gs).map (fun n => [encode (f (BitVec.ofNat 8 n))])

/-- The operands of a pseudo-instruction, separated by commas; none at all is a list too (R72). -/
def byteList : List (List Text) → Except AsmReason (List Byte)
  | [] => .ok []
  | [t] :: gs =>
    match readByte t, byteList gs with
    | .ok b, .ok bs => .ok (b :: bs)
    | .error e, _ => .error e
    | _, .error e => .error e
  | _ => .error .notANumber

/-- A pseudo-instruction on a list of bytes. -/
def listCommand (f : List Byte → Pseudo) (gs : List (List Text)) :
    Except AsmReason (List CmdWord) :=
  (byteList gs).map (fun ds => (f ds).expand.map encode)

/-- The directive `.word <16-bit value>` (R71). -/
def wordDirective : Text := ['.', 'w', 'o', 'r', 'd']

/-- The words of a mnemonic, given in upper case, and its operands (R70 to R72). -/
def assembleMnemonic (m : Text) (gs : List (List Text)) : Except AsmReason (List CmdWord) :=
  if m = ['I', 'N', 'I', 'T'] then noOperand [.init] gs
  else if m = ['F', 'I', 'N'] then noOperand [.fin] gs
  else if m = ['U', 'P', 'D', 'B'] then byteCommand .updb gs
  else if m = ['U', 'P', 'D', 'T'] then byteCommand .updt gs
  else if m = ['G', 'E', 'N'] then byteCommand .gen gs
  else if m = ['T', 'R', 'D'] then byteCommand .trd gs
  else if m = ['G', 'E', 'N', '0'] then noOperand Pseudo.gen0.expand gs
  else if m = ['W', 'R', 'B'] then listCommand .wrb gs
  else if m = ['W', 'R', 'T'] then listCommand .wrt gs
  else if m = ['C', 'R', 'C', 'B'] then listCommand .crcb gs
  else if m = ['C', 'R', 'C', 'T'] then listCommand .crct gs
  else .error .unknownMnemonic

/-- The mnemonic or directive of a line, and what stands after it; a comment is left out (R70). -/
def lineParts (l : Text) : Text × Text :=
  ((l.takeWhile (· != ';')).dropWhile isBlank).span (fun c => !isBlank c)

/-- The words one line emits (R70, R71); an empty line emits none. -/
def assembleLine (l : Text) : Except AsmReason (List CmdWord) :=
  match lineParts l with
  | ([], _) => .ok []
  | (m, rest) =>
    if m = wordDirective then
      (oneOperand 65535 (operandGroups rest)).map (fun n => [BitVec.ofNat 16 n])
    else assembleMnemonic (m.map upperChar) (operandGroups rest)

/-- The words of the lines of a source, the first of them numbered `n`. DESIGN CHOICE (log 15): of
several faulty lines the first is the one a refusal names, and it alone; R71 says only that a refusal
names the line. -/
def assembleLines (n : Nat) : List Text → Except AsmError (List CmdWord)
  | [] => .ok []
  | l :: ls =>
    match assembleLine l with
    | .error r => .error ⟨n, r⟩
    | .ok ws => (assembleLines (n + 1) ls).map (fun rest => ws ++ rest)

/-- Assemble a source, one command per line (R70). -/
def assemble (src : Text) : Except AsmError (List CmdWord) :=
  assembleLines 1 (splitAt (· == '\n') src)

/-- A hexadecimal digit, upper case (log 16). -/
def hexDigit (n : BitVec 4) : Char :=
  if n.toNat < 10 then Char.ofNat (48 + n.toNat) else Char.ofNat (55 + n.toNat)

/-- A byte as `0xHH` (log 16). -/
def hexByte (b : Byte) : Text :=
  ['0', 'x', hexDigit (b.extractLsb' 4 4), hexDigit (b.extractLsb' 0 4)]

/-- A word as `0xHHHH` (R71). -/
def hexWord (w : CmdWord) : Text :=
  ['0', 'x', hexDigit (w.extractLsb' 12 4), hexDigit (w.extractLsb' 8 4),
    hexDigit (w.extractLsb' 4 4), hexDigit (w.extractLsb' 0 4)]

/-- A disassembler prints each word as the command it decodes to, and an illegal word as
`.word 0xHHHH` (R71). -/
def disassemble (w : CmdWord) : Text :=
  match decode w with
  | .command .init => ['I', 'N', 'I', 'T']
  | .command (.updb b) => ['U', 'P', 'D', 'B', ' '] ++ hexByte b
  | .command (.updt b) => ['U', 'P', 'D', 'T', ' '] ++ hexByte b
  | .command .fin => ['F', 'I', 'N']
  | .command (.gen g) => ['G', 'E', 'N', ' '] ++ hexByte g
  | .command (.trd i) => ['T', 'R', 'D', ' '] ++ hexByte i
  | .illegal w => wordDirective ++ [' '] ++ hexWord w

end Sys2Proof.Machine
end

