-- ==== Sys2Proof/Machine/Instance.lean ====
section
/-! DEFINITION. The machine with its parameters as an argument (00_scope.md R9, 10_state.md R38: a model
takes the configuration record as a parameter). `exec` and `step` are this machine at the one
unknown `Config.fixed`; here a claim can name its parameters, and a test can choose them (log 1). -/

namespace Sys2Proof.Machine

/-- What command `i` does on an instance with parameters `cfg`. -/
def effectOf (cfg : Config) : Instr → State → State
  | .init, s => initEffect cfg s
  | .updb b, s => updbEffect cfg b s
  | .updt b, s => updtEffect cfg b s
  | .fin, s => finEffect s
  | .gen g, s => genEffect cfg g s
  | .trd j, s => trdEffect cfg j s

/-- What word `w` does on an instance with parameters `cfg` (30_encoding.md R68). -/
def wordEffectOf (cfg : Config) (w : CmdWord) (s : State) : State :=
  match decode w with
  | .command i => effectOf cfg i s
  | .illegal w => s.raiseIllegalCommand w

/-- Complete the command in flight on an instance with parameters `cfg`. -/
def completionOf (cfg : Config) (s : State) : State :=
  match s.inFlight with
  | some w => wordEffectOf cfg w s
  | none => s

/-- One step of an instance with parameters `cfg`. -/
def stepOf (cfg : Config) (s : State) : State :=
  match s.tick with
  | .reset => s.dropTick.resetBlock cfg
  | .accept => s.dropTick.releaseReset.accept
  | .run => completionOf cfg s.dropTick.releaseReset.accept

end Sys2Proof.Machine
end

