-- ==== Sys2Proof/Machine/HostPort.lean ====
section
/-! DEFINITION. What the host sees and drives on the ports (10_state.md R31 to R35, R39), host reads
of `RESULT` and `STATUS` (20_memory.md R51, 70_reset_and_hazards.md R156), and `RESULT` as bytes
(20_memory.md R48). -/

namespace Sys2Proof.Machine

/-- Quiescent: no command in flight and reset not asserted (00_scope.md R17). -/
def State.quiescent (s : State) : Bool := !s.rst && s.inFlight.isNone

/-- `CMD_READY` (10_state.md R34): 1 exactly when the instance is quiescent. -/
def State.cmdReady (s : State) : Bool := s.quiescent

/-- `CMD_VALID` (R31): the host offers a word. -/
def State.cmdValid (s : State) : Bool := !s.commands.isEmpty

/-- `CMD` (R31), while the host offers a word. The host holds it until it is accepted
(70_reset_and_hazards.md R155; log 3). -/
def State.cmd (s : State) : Option CmdWord := s.commands.head?

/-- The free value the next undefined read draws (log 6). -/
def State.freeRead (s : State) : ResultWord := Config.freeRead s.draws

/-- A free value has been drawn. -/
def State.countDraw (s : State) : State := { s with draws := s.draws + 1 }

/-- Each bit from `new` where the mask has a 1, from `old` where it has a 0. -/
def mixBits {n : Nat} (mask old new : BitVec n) : BitVec n :=
  (old &&& ~~~mask) ||| (new &&& mask)

/-- A host read of `RESULT`, on an instance with parameters `cfg`: the register when quiescent (R51);
while a command is in flight each bit is the one before or the one after that command, by a free draw
(R156, 93_implementation_defined.md U6); while reset is asserted the read is not defined (R156),
a free value (log 6) of which bytes 1 to 7 are 0, as R48 says they always are. A read changes nothing
of the block. -/
def readResultOf (cfg : Config) (s : State) : ResultWord × State :=
  if s.rst then (zext64 (s.freeRead.setWidth 8), s.countDraw)
  else
    match s.inFlight with
    | none => (s.result, s)
    | some _ => (mixBits s.freeRead s.result (completionOf cfg s).result, s.countDraw)

/-- A host read of `STATUS`, likewise. `STATUS[7:1]` reads 0 at all times (10_state.md R25;
93_implementation_defined.md U9). -/
def readStatusOf (cfg : Config) (s : State) : Byte × State :=
  if s.rst then (s.freeRead.setWidth 8 &&& 0x01#8, s.countDraw)
  else
    match s.inFlight with
    | none => (s.status, s)
    | some _ =>
      (mixBits (s.freeRead.setWidth 8) s.status (completionOf cfg s).status, s.countDraw)

/-- A host read of `RESULT` on the instance `step` is of. -/
def readResult (s : State) : ResultWord × State := readResultOf Config.fixed s

/-- A host read of `STATUS` on the instance `step` is of. -/
def readStatus (s : State) : Byte × State := readStatusOf Config.fixed s

/-- Byte k of `RESULT` where a host reads it as bytes: `RESULT[8k+7:8k]`, little-endian
(20_memory.md R48). -/
def resultByte (r : ResultWord) (k : Fin 8) : Byte := r.extractLsb' (8 * k.val) 8

end Sys2Proof.Machine
end

