-- ==== Sys2Proof/Safety.lean ====
section
/-! DEFINITION. The terms claims are made in: a run of several steps, the invariant every step keeps, a
valid table, and a run that met no illegal word. -/

namespace Sys2Proof.Machine

/-- `k` steps, stopping at the first fault or refusal. -/
def runSteps : Nat → State → Host.Outcome State Fault Refusal
  | 0, s => .next s
  | k + 1, s =>
    match step s with
    | .next t => runSteps k t
    | .fault r => .fault r
    | .refused r => .refused r

/-- The byte `TABLE[i]` of the instance `step` is of. -/
def State.tableAt (s : State) (i : Byte) : Byte := s.table.read Config.fixed i

/-- The table store is valid for an instance with parameters `cfg`: `TABLE = gen(POLY, 0x00)`
(42_table_generator.md R102). -/
def ValidTable (cfg : Config) (m : Memory) : Prop := ∀ i : Byte, m.read cfg i = gen cfg.poly 0x00#8 i

/-- Every piece of the block's state holds its value of 10_state.md R37. -/
structure State.AtReset (cfg : Config) (s : State) : Prop where
  acc : s.acc = cfg.init
  result : s.result = 0
  err : s.err = false
  table : ∀ i : Byte, s.table.read cfg i = cfg.tableResetAt i
  cix : s.cix = 0
  inFlight : s.inFlight = none

/-- The invariant: the table store is in canonical form (log 10), `RESULT[63:8]` is 0 (10_state.md
R24), and while reset is asserted the block is at its reset values (70_reset_and_hazards.md R150). -/
structure State.Inv (cfg : Config) (s : State) : Prop where
  table_wf : s.table.wf cfg = true
  result_high : s.result.extractLsb' 8 56 = 0
  in_reset : s.rst = true → s.AtReset cfg

/-- No illegal word among those in flight or still to be issued (60_exceptions.md R134: the premise
"no illegal word in the program"). -/
def State.OnlyLegalWords (s : State) : Prop :=
  (∀ w ∈ s.inFlight, legal w = true) ∧ ∀ w ∈ s.commands, legal w = true

/-- A run is clean at a state when `STATUS.ERR` = 0 there (60_exceptions.md R134). -/
def State.Clean (s : State) : Prop := s.err = false

end Sys2Proof.Machine
end

