-- ==== Sys2Proof/Certificates/Slice0/Obligations.lean ====
section
/-! DEFINITION. The statements for the provers, in the order of the spec's rules. `Config.fixed` is
opaque, so a statement about `exec` and `step` holds for every `POLY`, `INIT` and `TABLE_RESET`; a
statement that names a parameter's value is about `effectOf` or `stepOf`, for every `cfg`. -/

open Sys2Proof Sys2Proof.Machine

/-! ### Encoding (30_encoding.md) -/

/-- R69: the encodings, and that encoding and decoding are inverse to each other, on every command and
every legal word. -/
def Obligations.EncodingAndDecodingAreInverse : Prop :=
  (encode .init = 0x1000#16 ∧ encode .fin = 0x4000#16 ∧
    ∀ b : Byte, encode (.updb b) = 0x2000#16 ||| b.setWidth 16 ∧
      encode (.updt b) = 0x3000#16 ||| b.setWidth 16 ∧
      encode (.gen b) = 0x5000#16 ||| b.setWidth 16 ∧
      encode (.trd b) = 0x6000#16 ||| b.setWidth 16) ∧
  (∀ w : CmdWord, legal w = true → ∃ i, decode w = .command i ∧ encode i = w) ∧
  ∀ i : Instr, decode (encode i) = .command i

/-- R64: a word is legal exactly when it is 0x1000, 0x4000 or has `RSV` 0 and `OP` 2, 3, 5 or 6; the six
match and mask pairs are disjoint, a legal word selects exactly one command, and every other word is
illegal. -/
def Obligations.LegalWordsAreExactlyTheCommands : Prop :=
  ∀ w : CmdWord,
    (legal w = true ↔ w = 0x1000#16 ∨ w = 0x4000#16 ∨
      (w.extractLsb' 8 4 = 0#4 ∧ (w.extractLsb' 12 4 = 2#4 ∨ w.extractLsb' 12 4 = 3#4 ∨
        w.extractLsb' 12 4 = 5#4 ∨ w.extractLsb' 12 4 = 6#4))) ∧
    (([(0x1000#16, 0xFFFF#16), (0x2000#16, 0xFF00#16), (0x3000#16, 0xFF00#16), (0x4000#16, 0xFFFF#16),
        (0x5000#16, 0xFF00#16), (0x6000#16, 0xFF00#16)] : List (CmdWord × CmdWord)).Pairwise
      fun a b => ¬(w &&& a.2 = a.1 ∧ w &&& b.2 = b.1)) ∧
    (legal w = true → ∃! i, decode w = .command i) ∧
    (legal w = false → decode w = .illegal w)

/-- R63's match and mask pairs and R62's operand: each command is decoded from exactly the words its
pair matches, with `w[7:0]` as its operand; `OP` 0x0 and 0x7 to 0xF never decode to a command. -/
def Obligations.DecodingFollowsMatchAndMask : Prop :=
  ∀ w : CmdWord,
    (decode w = .command .init ↔ w = 0x1000#16) ∧
    (decode w = .command .fin ↔ w = 0x4000#16) ∧
    (∀ b : Byte, decode w = .command (.updb b) ↔ w &&& 0xFF00#16 = 0x2000#16 ∧ b = w.extractLsb' 0 8) ∧
    (∀ b : Byte, decode w = .command (.updt b) ↔ w &&& 0xFF00#16 = 0x3000#16 ∧ b = w.extractLsb' 0 8) ∧
    (∀ g : Byte, decode w = .command (.gen g) ↔ w &&& 0xFF00#16 = 0x5000#16 ∧ g = w.extractLsb' 0 8) ∧
    (∀ i : Byte, decode w = .command (.trd i) ↔ w &&& 0xFF00#16 = 0x6000#16 ∧ i = w.extractLsb' 0 8) ∧
    (w.extractLsb' 12 4 = 0#4 ∨ 7#4 ≤ w.extractLsb' 12 4 → decode w = .illegal w)

/-- R65: how many words are legal, in all and per command. -/
def Obligations.LegalWordCounts : Prop :=
  Nat.card {w : CmdWord // legal w = true} = 1026 ∧
  Nat.card {w : CmdWord // legal w = false} = 64510 ∧
  Nat.card {w : CmdWord // decode w = .command .init} = 1 ∧
  Nat.card {w : CmdWord // decode w = .command .fin} = 1 ∧
  Nat.card {w : CmdWord // ∃ b, decode w = .command (.updb b)} = 256 ∧
  Nat.card {w : CmdWord // ∃ b, decode w = .command (.updt b)} = 256 ∧
  Nat.card {w : CmdWord // ∃ g, decode w = .command (.gen g)} = 256 ∧
  Nat.card {w : CmdWord // ∃ i, decode w = .command (.trd i)} = 256 ∧
  legal 0x0000#16 = false ∧ legal 0xFFFF#16 = false

/-- Words written out from R61 and R63 (95_test_vectors.md 2.7) decode to what they stand for. -/
def Obligations.SampleWordsDecode : Prop :=
  decode 0b0001000000000000#16 = .command .init ∧
  decode 0b0010000010110100#16 = .command (.updb 0xB4#8) ∧
  decode 0b0011000010110100#16 = .command (.updt 0xB4#8) ∧
  decode 0b0100000000000000#16 = .command .fin ∧
  decode 0b0101000011111111#16 = .command (.gen 0xFF#8) ∧
  decode 0b0110000000000001#16 = .command (.trd 0x01#8) ∧
  decode 0x1001#16 = .illegal 0x1001#16 ∧ decode 0x4080#16 = .illegal 0x4080#16 ∧
  decode 0x2100#16 = .illegal 0x2100#16 ∧ decode 0x7000#16 = .illegal 0x7000#16

/-! ### The step -/

/-- A step runs the decoded command: when the word in flight or the word offered on the command port
decodes to `i`, the step is `exec i` at the state with the word accepted (R33, R36, R68) and reset
released, should the state still show it asserted (the model's, log 11). The last clause says the same
of a word placed by `withFetchWord` (the model's choice, log 8). -/
def Obligations.StepRunsTheDecodedCommand : Prop :=
  (∀ (s : State) (w : CmdWord) (ws : List CmdWord) (i : Instr), s.tick = .run → s.inFlight = none →
    s.commands = w :: ws → decode w = .command i →
    step s = exec i { s with ticks := s.ticks.tail, rst := false, inFlight := some w, commands := ws }) ∧
  (∀ (s : State) (w : CmdWord) (i : Instr), s.tick = .run → s.inFlight = some w →
    decode w = .command i → step s = exec i { s with ticks := s.ticks.tail, rst := false }) ∧
  (∀ (s : State) (nbits w : Nat) (i : Instr), decodeTableWord nbits w = some i →
    step (s.withFetchWord nbits w) =
      exec i { s with rst := false, inFlight := some (tableWord nbits w) })

/-- No step faults and none is refused: every step, from every state, answers a next state, that of the
machine with its parameters as an argument (R9, R38; log 1) at the parameters of the one instance. -/
def Obligations.StepIsTheMachineAtItsParameters : Prop :=
  ∀ s : State, step s = .next (stepOf Config.fixed s)

/-- R8, "no rule depends on them": the latencies and the reset polarity do not matter to any step. -/
def Obligations.StepReadsOnlyPolyInitAndTableReset : Prop :=
  ∀ (c d : Config) (s : State), c.poly = d.poly → c.init = d.init → c.tableReset = d.tableReset →
    stepOf c s = stepOf d s

/-- R28: nothing in the block reads `cix`; it counts the commands completed since the last reset. A step from a state that still shows reset
asserted releases it and counts the word it runs (log 11). -/
def Obligations.CixCountsCompletedCommandsAndIsNeverRead : Prop :=
  (∀ s t : State, step s = .next t →
    (s.tick = .reset → t.cix = 0) ∧
    (s.tick ≠ .reset → s.wordToRun ≠ none → t.cix = s.cix + 1) ∧
    (s.tick ≠ .reset → s.wordToRun = none → t.cix = s.cix)) ∧
  (∀ (s t u : State) (n : Nat), step s = .next t → step { s with cix := n } = .next u →
    ({ u with cix := 0 } : State) = { t with cix := 0 })

/-- R145: with no command in flight and none offered, a step without reset changes nothing of the block
(log 7); reset is released, should the state still show it asserted (log 11). -/
def Obligations.StateIsHeldBetweenCommands : Prop :=
  ∀ s : State, s.tick ≠ .reset → s.inFlight = none → s.commands = [] →
    step s = .next { s with ticks := s.ticks.tail, rst := false }

/-! ### The six commands -/

/-- R110: INIT sets `ACC` to `INIT` and writes nothing else; only the word 0x1000 is INIT; right after
reset it changes nothing but the command index. -/
def Obligations.InitReseedsTheAccumulator : Prop :=
  (∀ s : State, exec .init s =
    .next { s with acc := Config.fixed.init, cix := s.cix + 1, inFlight := none }) ∧
  decode 0x1000#16 = .command .init ∧
  (∀ x : Byte, x ≠ 0 →
    decode (0x1000#16 ||| x.setWidth 16) = .illegal (0x1000#16 ||| x.setWidth 16)) ∧
  exec .init State.reset = .next { State.reset with cix := 1 } ∧
  (∀ (cfg : Config) (s : State), cfg.init = 0x00#8 → s.acc = 0x5F#8 →
    (effectOf cfg .init s).acc = 0x00#8)

/-- R83: UPDB b sets `ACC` to `step8(ACC ^ b, POLY)` and writes nothing else; the corner cases and the
example of the rule. -/
def Obligations.UpdbFoldsAByteWithStep8 : Prop :=
  (∀ (b : Byte) (s : State), exec (.updb b) s =
    .next { s with acc := step8 (s.acc ^^^ b) Config.fixed.poly, cix := s.cix + 1, inFlight := none }) ∧
  (∀ b : Byte, decode (0x2000#16 ||| b.setWidth 16) = .command (.updb b)) ∧
  (∀ (b r : Byte), r ≠ 0 → r.toNat < 16 →
    decode (0x2000#16 ||| (r.setWidth 16 <<< 8) ||| b.setWidth 16) =
      .illegal (0x2000#16 ||| (r.setWidth 16 <<< 8) ||| b.setWidth 16)) ∧
  (∀ (cfg : Config) (s : State), (effectOf cfg (.updb 0x00#8) s).acc = step8 s.acc cfg.poly) ∧
  (∀ (cfg : Config) (b : Byte) (s : State), s.acc ^^^ b = 0x00#8 →
    (effectOf cfg (.updb b) s).acc = 0x00#8) ∧
  (∀ (cfg : Config) (b : Byte) (s : State), cfg.poly = 0x00#8 →
    (effectOf cfg (.updb b) s).acc = 0x00#8) ∧
  (∀ (cfg : Config) (s : State), cfg.poly = 0x07#8 → s.acc = 0x00#8 →
    (effectOf cfg (.updb 0xB4#8) s).acc = 0x05#8)

/-- R91: UPDT b sets `ACC` to `TABLE[ACC ^ b]` and writes nothing else, whatever the table holds; the
corner cases and the example of the rule. -/
def Obligations.UpdtLooksUpTheTable : Prop :=
  (∀ (b : Byte) (s : State), exec (.updt b) s =
    .next { s with acc := s.tableAt (s.acc ^^^ b), cix := s.cix + 1, inFlight := none }) ∧
  (∀ b : Byte, decode (0x3000#16 ||| b.setWidth 16) = .command (.updt b)) ∧
  (∀ (cfg : Config) (b : Byte) (s : State), s.acc ^^^ b = 0x00#8 →
    (effectOf cfg (.updt b) s).acc = s.table.read cfg 0x00#8) ∧
  (∀ (cfg : Config) (b : Byte) (s : State), ValidTable cfg s.table → s.acc ^^^ b = 0x00#8 →
    (effectOf cfg (.updt b) s).acc = 0x00#8) ∧
  (∀ (c d : Config) (b : Byte) (s : State), c.tableReset = d.tableReset →
    effectOf c (.updt b) s = effectOf d (.updt b) s) ∧
  (∀ (cfg : Config) (s : State), cfg.poly = 0x07#8 → ValidTable cfg s.table → s.acc = 0x00#8 →
    (effectOf cfg (.updt 0xB4#8) s).acc = 0x05#8)

/-- R111: FIN copies `ACC`, zero-extended, to `RESULT` and writes nothing else; only the word 0x4000
is FIN; FIN twice gives the same `RESULT` twice. -/
def Obligations.FinPublishesTheChecksum : Prop :=
  (∀ s : State, exec .fin s =
    .next { s with result := s.acc.setWidth 64, cix := s.cix + 1, inFlight := none }) ∧
  decode 0x4000#16 = .command .fin ∧
  (∀ x : Byte, x ≠ 0 →
    decode (0x4000#16 ||| x.setWidth 16) = .illegal (0x4000#16 ||| x.setWidth 16)) ∧
  (∀ s t : State, exec .fin s = .next t → t.result.extractLsb' 8 56 = 0) ∧
  (∀ s t u : State, exec .fin s = .next t → exec .fin t = .next u → u.result = t.result) ∧
  (∀ s t : State, s.acc = 0x5F#8 → exec .fin s = .next t →
    t.result = 0x000000000000005F#64 ∧ t.acc = 0x5F#8)

/-- R101: after GEN g every `TABLE[i]` is `gen(POLY, g)[i]` = `step8(g ^ i, POLY)`, and nothing else is
written; the corner cases and the example of the rule. -/
def Obligations.GenFillsTheTable : Prop :=
  (∀ (g : Byte) (s : State), ∃ t, exec (.gen g) s = .next t ∧
    (∀ i : Byte, t.tableAt i = step8 (g ^^^ i) Config.fixed.poly ∧
      t.tableAt i = gen Config.fixed.poly g i) ∧
    t = { s with table := t.table, cix := s.cix + 1, inFlight := none }) ∧
  (∀ g : Byte, decode (0x5000#16 ||| g.setWidth 16) = .command (.gen g)) ∧
  (∀ (cfg : Config) (g : Byte) (s : State),
    ValidTable cfg (effectOf cfg (.gen g) s).table ↔ step8 g cfg.poly = 0x00#8) ∧
  (∀ (cfg : Config) (s : State), ValidTable cfg (effectOf cfg (.gen 0x00#8) s).table) ∧
  (∀ (cfg : Config) (g i : Byte) (s : State), cfg.poly = 0x00#8 →
    (effectOf cfg (.gen g) s).table.read cfg i = 0x00#8) ∧
  (∀ (cfg : Config) (g i : Byte) (s t : State),
    (effectOf cfg (.gen g) s).table.read cfg i = (effectOf cfg (.gen g) t).table.read cfg i) ∧
  (∀ (cfg : Config) (s : State), cfg.poly = 0x07#8 →
    (effectOf cfg (.gen 0x00#8) s).table.read cfg 0x01#8 = 0x07#8 ∧
    (effectOf cfg (.gen 0x00#8) s).table.read cfg 0x80#8 = 0x89#8 ∧
    (effectOf cfg (.gen 0x00#8) s).table.read cfg 0xFF#8 = 0xF3#8)

/-- R103: TRD i copies `TABLE[i]`, zero-extended, to `RESULT` and writes nothing else; right after
reset it reads `TABLE_RESET[i]`; a later FIN overwrites `RESULT`. -/
def Obligations.TrdReadsOneEntry : Prop :=
  (∀ (i : Byte) (s : State), exec (.trd i) s =
    .next { s with result := (s.tableAt i).setWidth 64, cix := s.cix + 1, inFlight := none }) ∧
  (∀ i : Byte, decode (0x6000#16 ||| i.setWidth 16) = .command (.trd i)) ∧
  (∀ (i : Byte) (s t : State), exec (.trd i) s = .next t → t.result.extractLsb' 8 56 = 0) ∧
  (∀ (i : Byte) (t : State), exec (.trd i) State.reset = .next t →
    t.result = (Config.fixed.tableResetAt i).setWidth 64) ∧
  (∀ (i : Byte) (s t : State), execAll [.trd i, .fin] s = .next t → t.result = s.acc.setWidth 64) ∧
  (∀ (cfg : Config) (s : State), cfg.poly = 0x07#8 → ValidTable cfg s.table →
    (effectOf cfg (.trd 0xFF#8) s).result = 0x00000000000000F3#64)

/-- The frame of every command: what it leaves unchanged (R21, R23, R26, R42, R43). INIT, UPDB and UPDT
may change `ACC`, FIN and TRD `RESULT`, GEN bytes of the table store; each completes. -/
def Obligations.CommandFrames : Prop :=
  ∀ (i : Instr) (s t : State), exec i s = .next t →
    (t.err = s.err ∧ t.status = s.status ∧ t.rst = s.rst ∧ t.commands = s.commands ∧
      t.ticks = s.ticks ∧ t.draws = s.draws ∧ t.cix = s.cix + 1 ∧ t.inFlight = none) ∧
    (i ≠ .init → (∀ b, i ≠ .updb b) → (∀ b, i ≠ .updt b) → t.acc = s.acc) ∧
    (i ≠ .fin → (∀ j, i ≠ .trd j) → t.result = s.result) ∧
    ((∀ g, i ≠ .gen g) → ∀ j : Byte, t.tableAt j = s.tableAt j)

/-! ### The one exception (60_exceptions.md) -/

/-- R130: an accepted word that decodes to ILLEGAL raises IllegalCommand, and no legal command raises
an exception: each is total on every state and operand. -/
def Obligations.OnlyIllegalWordsRaise : Prop :=
  (∀ (w v : CmdWord) (s : State), decode w = .illegal v →
    runWord w s = .next (s.raiseIllegalCommand v) ∧ v = w) ∧
  ∀ (i : Instr) (s : State), ∃ t, exec i s = .next t ∧ t.err = s.err

/-- R131: an illegal word, in flight or offered, sets `STATUS.ERR` and changes nothing else: `ACC`,
`RESULT`, `TABLE` and `STATUS[7:1]` are unchanged; the word is consumed, `cix` increases by 1 and
`CMD_READY` returns to 1. Two illegal words do the same. From a state that still shows reset asserted
the step releases it and then runs the word: that is the model's (log 11), not R131's. -/
def Obligations.IllegalWordSetsErrAndNothingElse : Prop :=
  (∀ (s : State) (w : CmdWord), s.tick = .run → s.inFlight = some w → legal w = false →
    ∃ t, step s = .next t ∧ t.cmdReady = true ∧
      (∀ k, 1 ≤ k → t.status.getLsbD k = s.status.getLsbD k) ∧
      t = { s with err := true, cix := s.cix + 1, inFlight := none, rst := false,
                   ticks := s.ticks.tail }) ∧
  (∀ (s : State) (w : CmdWord) (ws : List CmdWord), s.tick = .run → s.inFlight = none →
    s.commands = w :: ws → legal w = false →
    ∃ t, step s = .next t ∧ t.cmdReady = true ∧
      (∀ k, 1 ≤ k → t.status.getLsbD k = s.status.getLsbD k) ∧
      t = { s with err := true, cix := s.cix + 1, rst := false, commands := ws,
                   ticks := s.ticks.tail }) ∧
  (∀ (v w : CmdWord) (s : State), s.raiseIllegalCommand v = s.raiseIllegalCommand w)

/-- R26: `STATUS.ERR` is sticky. Only an illegal word sets it, only reset clears it, and a legal
command leaves it unchanged. -/
def Obligations.ErrIsSticky : Prop :=
  ∀ s t : State, step s = .next t →
    (s.err = false → t.err = true → ∃ w, s.wordToRun = some w ∧ legal w = false) ∧
    (s.err = true → t.err = false → s.tick = .reset) ∧
    (∀ w, s.wordToRun = some w → legal w = true → t.err = s.err)

/-- R134: a run with no illegal word stays clean: the premise and `STATUS.ERR` = 0 are kept by every
step. -/
def Obligations.LegalWordsKeepTheRunClean : Prop :=
  ∀ s t : State, s.OnlyLegalWords → s.Clean → step s = .next t → t.OnlyLegalWords ∧ t.Clean

/-- R25: `STATUS[0]` is `ERR` and `STATUS[7:1]` always read 0: in the register, and in every host read,
also one in flight or in reset (93_implementation_defined.md U9), for every value of the free reads. -/
def Obligations.StatusReadsErrAndZeros : Prop :=
  ∀ s : State, s.status.getLsbD 0 = s.err ∧ (∀ k, 1 ≤ k → s.status.getLsbD k = false) ∧
    (∀ k, 1 ≤ k → (readStatus s).1.getLsbD k = false) ∧ State.reset.status = 0x00#8

/-! ### Who writes what -/

/-- R21: `ACC` changes only by INIT, UPDB, UPDT and reset. -/
def Obligations.AccIsWrittenOnlyByInitUpdbUpdtAndReset : Prop :=
  ∀ s t : State, step s = .next t → t.acc ≠ s.acc →
    s.tick = .reset ∨ ∃ w, s.wordToRun = some w ∧
      (decode w = .command .init ∨ (∃ b, decode w = .command (.updb b)) ∨
        ∃ b, decode w = .command (.updt b))

/-- R23: `RESULT` is written by FIN with `zext_64(ACC)`, by TRD with `zext_64(TABLE[i])`, by reset with
0, and by nothing else. A step from a state that still shows reset asserted releases it first (log
11). -/
def Obligations.ResultIsWrittenOnlyByFinTrdAndReset : Prop :=
  ∀ s t : State, step s = .next t →
    (s.tick = .reset → t.result = 0) ∧
    (∀ w, s.wordToRun = some w → decode w = .command .fin → t.result = s.acc.setWidth 64) ∧
    (∀ w i, s.wordToRun = some w → decode w = .command (.trd i) →
      t.result = (s.tableAt i).setWidth 64) ∧
    (t.result ≠ s.result → s.tick = .reset ∨ ∃ w, s.wordToRun = some w ∧
      (decode w = .command .fin ∨ ∃ i, decode w = .command (.trd i)))

/-- R43: outside GEN and reset the table store is read-only. -/
def Obligations.TableIsReadOnlyOutsideGenAndReset : Prop :=
  ∀ s t : State, step s = .next t → t.table ≠ s.table →
    s.tick = .reset ∨ ∃ w g, s.wordToRun = some w ∧ decode w = .command (.gen g)

/-! ### The invariant -/

/-- R24, and the model's canonical form (log 10), and R150: from every state that meets the invariant
a step gives a state that meets it. -/
def Obligations.EveryStepKeepsTheInvariant : Prop :=
  ∀ s t : State, s.Inv Config.fixed → step s = .next t → t.Inv Config.fixed

/-- The invariant holds after reset. -/
def Obligations.ResetMeetsTheInvariant : Prop := State.reset.Inv Config.fixed

/-! ### Reset (70_reset_and_hazards.md) -/

/-- R37: what every piece of state holds after reset. -/
def Obligations.ResetValues : Prop :=
  (State.reset.acc = Config.fixed.init ∧ State.reset.result = 0x0000000000000000#64 ∧
    State.reset.err = false ∧ (∀ k, 1 ≤ k → State.reset.status.getLsbD k = false) ∧
    (∀ i : Byte, State.reset.tableAt i = Config.fixed.tableResetAt i) ∧
    State.reset.inFlight = none ∧ State.reset.cix = 0 ∧ State.reset.cmdReady = true) ∧
  ∀ s : State, s.rst = true → s.cmdReady = false

/-- R150: reset abandons the in-flight command and sets every piece of state, whatever it held; it is
the only event that clears `STATUS.ERR` and the only one besides GEN that writes `TABLE`. That the words
the host has still to issue stay offered is R151 with the model's log 11. -/
def Obligations.ResetSetsEveryPieceOfState : Prop :=
  (∀ s : State, s.tick = .reset → ∃ t, step s = .next t ∧ t.cmdReady = false ∧
    t.acc = Config.fixed.init ∧ t.result = 0 ∧ t.err = false ∧
    (∀ i : Byte, t.tableAt i = Config.fixed.tableResetAt i) ∧ t.cix = 0 ∧ t.inFlight = none ∧
    t.commands = s.commands) ∧
  (∀ s t : State, step s = .next t → s.err = true → t.err = false → s.tick = .reset) ∧
  (∀ s t : State, step s = .next t → (∃ i : Byte, t.tableAt i ≠ s.tableAt i) →
    s.tick = .reset ∨ ∃ w g, s.wordToRun = some w ∧ decode w = .command (.gen g))

/-- R151: while `RST` is asserted no command is accepted; when it is released the instance is quiescent
and ready, the state does not change before the first command is accepted, and that command is
command 0. That the release is seen in the next step is the model's (log 11). -/
def Obligations.ReleaseOfResetKeepsTheState : Prop :=
  (∀ s t : State, s.tick = .reset → step s = .next t →
    t.commands = s.commands ∧ t.inFlight = none ∧ t.cmdReady = false) ∧
  (∀ s : State, s.Inv Config.fixed → s.rst = true → s.tick ≠ .reset → s.commands = [] →
    ∃ t, step s = .next t ∧ t.cmdReady = true ∧
      t = { s with rst := false, ticks := s.ticks.tail }) ∧
  (∀ (s : State) (w : CmdWord) (ws : List CmdWord), s.Inv Config.fixed → s.rst = true →
    s.tick = .accept → s.commands = w :: ws →
    ∃ t, step s = .next t ∧ t.cix = 0 ∧
      t = { s with rst := false, ticks := s.ticks.tail, inFlight := some w, commands := ws })

/-- R136, R46: a command in flight when reset is asserted is abandoned, its IllegalCommand included:
the block is as if it had never been accepted. -/
def Obligations.ResetAbandonsTheCommandInFlight : Prop :=
  ∀ (s t u : State) (n : Nat) (ts : List Tick),
    runSteps (n + 1) { s with ticks := List.replicate n .accept ++ .reset :: ts } = .next t →
    step { s with ticks := .reset :: ts } = .next u →
    t.err = false ∧ ({ t with commands := [] } : State) = { u with commands := [] }

/-! ### The command port and ordering (10_state.md, 20_memory.md) -/

/-- R34: `CMD_READY` is 1 exactly when reset is not asserted and no command is in flight. -/
def Obligations.ReadyExactlyWhenQuiescent : Prop :=
  ∀ s : State, s.cmdReady = true ↔ s.rst = false ∧ s.inFlight = none

/-- R32, R33: a word is taken exactly once, and only when nothing is in flight and reset is not
asserted; a word that is not accepted stays offered. From a ready state (`CMD_READY` = 1, R34) a step
without reset takes exactly the offered word. From a state that still shows reset asserted, a step
without reset first releases it and then takes the offered word: that the release is seen in that step
is the model's (log 11). -/
def Obligations.AWordIsAcceptedExactlyOnce : Prop :=
  ∀ s t : State, step s = .next t →
    (s.tick = .reset → t.commands = s.commands ∧ t.cmdReady = false) ∧
    (s.inFlight ≠ none → t.commands = s.commands) ∧
    (s.tick ≠ .reset → s.cmdReady = true → t.commands = s.commands.tail) ∧
    (s.tick = .accept → s.cmdReady = true → t.inFlight = s.commands.head?) ∧
    (s.tick ≠ .reset → s.rst = true → s.inFlight = none →
      s.releaseReset.cmdReady = true ∧ t.rst = false ∧ t.commands = s.commands.tail ∧
      (s.tick = .accept → t.inFlight = s.commands.head?)) ∧
    (t.commands ≠ s.commands → s.tick ≠ .reset ∧ s.releaseReset.cmdReady = true)

/-- R36, R46: a command is one indivisible step however long it is in flight. Between acceptance and
completion nothing of the block is written, and at completion everything is as if it had run at
once. The steps are those the ticks list (log 4), and the first of them releases a reset still shown
asserted (log 11). -/
def Obligations.CommandsAreIndivisible : Prop :=
  (∀ (s : State) (n : Nat) (ts : List Tick),
    runSteps (n + 1) { s with ticks := List.replicate n .accept ++ .run :: ts } =
      step { s with ticks := .run :: ts }) ∧
  (∀ s t : State, s.tick = .accept → step s = .next t →
    t.acc = s.acc ∧ t.result = s.result ∧ t.err = s.err ∧ t.table = s.table ∧ t.cix = s.cix)

/-- R50 (with R17 and R137): command words, legal or not, take effect in the order they are accepted: a
run over any sequence of words is the sequence of their effects, each on the state the earlier ones
leave. On the words of commands that is the sequence of the commands; an illegal word in the middle
sets `STATUS.ERR`, is counted, and the next word runs normally. The run is one with no tick listed
(log 4); that a command may be in flight for longer is `CommandsAreIndivisible`. -/
def Obligations.CommandsTakeEffectInOrder : Prop :=
  (∀ (vs ws : List CmdWord) (s : State), s.ticks = [] → s.inFlight = none → s.rst = false →
    s.commands = vs ++ ws → runSteps vs.length s = runWords vs { s with commands := ws }) ∧
  (∀ (is : List Instr) (s : State), runWords (is.map encode) s = execAll is s) ∧
  (∀ (us vs : List CmdWord) (w : CmdWord) (s t : State), legal w = false →
    runWords us s = .next t →
    runWords (us ++ w :: vs) s =
      runWords vs { t with err := true, cix := t.cix + 1, inFlight := none })

/-! ### Host reads -/

/-- R51: a read while quiescent returns the register and changes nothing. -/
def Obligations.QuiescentReadsReturnTheRegisters : Prop :=
  ∀ s : State, s.cmdReady = true → readResult s = (s.result, s) ∧ readStatus s = (s.status, s)

/-- R156 (93_implementation_defined.md U6): while a command is in flight each bit a read returns is
the one before or the one after that command, where "after" is what the next run of the step gives;
`STATUS[7:1]` still read 0; the read changes nothing but the model's draw counter. This holds for
every value of the free reads. -/
def Obligations.ReadsInFlightAreOldOrNewPerBit : Prop :=
  ∀ (s t : State) (w : CmdWord), s.rst = false → s.inFlight = some w →
    step { s with ticks := [] } = .next t →
    (∀ k, (readResult s).1.getLsbD k = s.result.getLsbD k ∨
      (readResult s).1.getLsbD k = t.result.getLsbD k) ∧
    ((readStatus s).1 = s.status ∨ (readStatus s).1 = t.status) ∧
    (readResult s).2 = { s with draws := s.draws + 1 } ∧
    (readStatus s).2 = { s with draws := s.draws + 1 }

/-- R48: byte k of `RESULT` is `RESULT[8k+7:8k]`, and bytes 1 to 7 are 0 in every state that meets the
invariant, and so are those of every host read in it, quiescent, in flight or in reset, for every value
of the free reads (log 6). -/
def Obligations.ResultBytesAreLittleEndian : Prop :=
  (∀ (r : ResultWord) (k : Fin 8) (j : Nat), j < 8 →
    (resultByte r k).getLsbD j = r.getLsbD (8 * k.val + j)) ∧
  (∀ (s : State) (k : Fin 8), s.Inv Config.fixed → k ≠ 0 →
    resultByte s.result k = 0 ∧ resultByte (readResult s).1 k = 0) ∧
  (∀ (s t : State), exec .fin s = .next t → resultByte t.result 0 = s.acc)

/-! ### The table store -/

/-- R40, in the model's canonical form (log 10): a write sets its entry and no other, the last write to
an entry wins and writes to different entries commute, as equal stores. -/
def Obligations.TableWritesAreIndependent : Prop :=
  ∀ (cfg : Config) (m : Memory), m.wf cfg = true → ∀ i j u v : Byte,
    (m.write cfg i v).wf cfg = true ∧
    (m.write cfg i v).read cfg i = v ∧
    (j ≠ i → (m.write cfg i v).read cfg j = m.read cfg j) ∧
    (m.write cfg i u).write cfg i v = m.write cfg i v ∧
    (j ≠ i → (m.write cfg i u).write cfg j v = (m.write cfg j v).write cfg i u)

/-- R44: reads of the table store change no state of it, and GEN g issued twice leaves the same table
as GEN g issued once. -/
def Obligations.ReadsAreIdempotentAndGenIsToo : Prop :=
  (∀ (i : Byte) (s t u : State), exec (.trd i) s = .next t → exec (.trd i) t = .next u →
    t.table = s.table ∧ u.result = t.result) ∧
  (∀ (b : Byte) (s t : State), exec (.updt b) s = .next t → t.table = s.table) ∧
  (∀ (g : Byte) (s t u : State), s.Inv Config.fixed → exec (.gen g) s = .next t →
    exec (.gen g) t = .next u → u.table = t.table)

/-- R158: GEN followed at once by UPDT or TRD reads the new table. -/
def Obligations.GenIsSeenByTheNextCommand : Prop :=
  ∀ (g i b : Byte) (s : State),
    (∃ t, execAll [.gen g, .trd i] s = .next t ∧
      t.result = (step8 (g ^^^ i) Config.fixed.poly).setWidth 64) ∧
    (∃ t, execAll [.gen g, .updt b] s = .next t ∧
      t.acc = step8 (g ^^^ (s.acc ^^^ b)) Config.fixed.poly)

/-! ### The CRC functions and their laws -/

/-- R86: `shift1` and `step8` are linear over XOR and keep 0. -/
def Obligations.Step8IsLinear : Prop :=
  (∀ a b p : Byte, shift1 (a ^^^ b) p = shift1 a p ^^^ shift1 b p) ∧
  (∀ a b p : Byte, step8 (a ^^^ b) p = step8 a p ^^^ step8 b p) ∧
  (∀ p : Byte, shift1 0x00#8 p = 0x00#8 ∧ step8 0x00#8 p = 0x00#8)

/-- R87: the bitwise engine on a concatenation. -/
def Obligations.BitwiseOfConcatenation : Prop :=
  ∀ (p v : Byte) (ds es : List Byte), bitwise p v (ds ++ es) = bitwise p (bitwise p v ds) es

/-- R88: the degenerate polynomial 0. -/
def Obligations.PolynomialZeroGivesZero : Prop :=
  (∀ c : Byte, step8 c 0x00#8 = 0x00#8) ∧
  (∀ (v : Byte) (ds : List Byte), ds ≠ [] → bitwise 0x00#8 v ds = 0x00#8) ∧
  (∀ v : Byte, bitwise 0x00#8 v [] = v)

/-- R93: with a valid table UPDT b and UPDB b have the same effect on every state, setting `ACC` to
`step8(ACC ^ b, POLY)` and writing nothing else; so the two engines agree on every input. -/
def Obligations.EnginesAgreeOnAValidTable : Prop :=
  (∀ (cfg : Config) (s : State) (b : Byte), ValidTable cfg s.table →
    effectOf cfg (.updt b) s = effectOf cfg (.updb b) s ∧
    effectOf cfg (.updt b) s =
      { s with acc := step8 (s.acc ^^^ b) cfg.poly, cix := s.cix + 1, inFlight := none }) ∧
  (∀ (s : State) (b : Byte), ValidTable Config.fixed s.table → exec (.updt b) s = exec (.updb b) s) ∧
  (∀ (p v : Byte) (ds : List Byte), tablecrc v (gen p 0x00#8) ds = bitwise p v ds)

/-- R94: the condition is necessary too: the engines agree on every state and input exactly when the
table is valid, and a wrong entry at i shows from `ACC` = i on the byte 0x00. -/
def Obligations.EnginesAgreeExactlyOnValidTables : Prop :=
  ∀ (cfg : Config) (m : Memory),
    ((∀ (s : State) (b : Byte), s.table = m →
      effectOf cfg (.updt b) s = effectOf cfg (.updb b) s) ↔ ValidTable cfg m) ∧
    (∀ (s : State) (i : Byte), s.table = m → s.acc = i → m.read cfg i ≠ step8 i cfg.poly →
      (effectOf cfg (.updt 0x00#8) s).acc = m.read cfg i ∧
      (effectOf cfg (.updb 0x00#8) s).acc = step8 i cfg.poly ∧
      (effectOf cfg (.updt 0x00#8) s).acc ≠ (effectOf cfg (.updb 0x00#8) s).acc)

/-- R95: when a table generated with initial value G is valid: exactly when `step8(G, p)` = 0, for an
odd p only for G = 0; the rule's other instances and its counterexample. -/
def Obligations.WhenAGeneratedTableIsValid : Prop :=
  (∀ p g i : Byte, gen p g i = step8 (g ^^^ i) p ∧ gen p g i = step8 g p ^^^ step8 i p) ∧
  (∀ p g : Byte, (∀ i, gen p g i = gen p 0x00#8 i) ↔ step8 g p = 0x00#8) ∧
  (∀ p : Byte, step8 0x00#8 p = 0x00#8) ∧
  (∀ p g : Byte, p.getLsbD 0 = true → (step8 g p = 0x00#8 ↔ g = 0x00#8)) ∧
  (∀ g i : Byte, gen 0x00#8 g i = 0x00#8) ∧
  step8 0x81#8 0x02#8 = 0x00#8 ∧
  bitwise 0x07#8 0xFF#8 [0x00#8] = 0xF3#8 ∧
  tablecrc 0xFF#8 (gen 0x07#8 0xFF#8) [0x00#8] = 0x00#8

/-- R96: with a valid table any mix of UPDB and UPDT over bytes D leaves `ACC` = `bitwise(POLY, v, D)`
from `ACC` = v, and writes nothing else. -/
def Obligations.EnginesMixFreelyOnAValidTable : Prop :=
  ∀ (s : State) (l : List (Bool × Byte)), ValidTable Config.fixed s.table →
    ∃ t, execAll (l.map fun c => if c.1 then .updb c.2 else .updt c.2) s = .next t ∧
      t.acc = bitwise Config.fixed.poly s.acc (l.map Prod.snd) ∧
      t.result = s.result ∧ t.err = s.err ∧ t.table = s.table ∧ t.cix = s.cix + l.length

/-- R105: a valid table is linear, `gen(p, g)[i] = gen(p, 0)[g ^ i]`, and a valid table is fixed by its
eight entries at the powers of two. -/
def Obligations.ValidTablesAreLinear : Prop :=
  (∀ p a b : Byte, gen p 0x00#8 (a ^^^ b) = gen p 0x00#8 a ^^^ gen p 0x00#8 b) ∧
  (∀ p g i : Byte, gen p g i = gen p 0x00#8 (g ^^^ i)) ∧
  (∀ (p : Byte) (t : Byte → Byte), (∀ a b, t (a ^^^ b) = t a ^^^ t b) →
    (∀ k, k < 8 → t (0x01#8 <<< k) = gen p 0x00#8 (0x01#8 <<< k)) → ∀ i, t i = gen p 0x00#8 i)

/-! ### Write, finish and one-shot compute (43_accumulator.md) -/

/-- R113: splitting the input into chunks changes nothing, for either engine and with any table, and
both leave the engine's value of the whole input in `ACC`. -/
def Obligations.IncrementalEqualsBatch : Prop :=
  ∀ (chunks : List (List Byte)) (s : State),
    (execAll (chunks.flatMap fun ds => (Pseudo.wrb ds).expand) s =
        execAll (Pseudo.wrb chunks.flatten).expand s ∧
      ∃ t, execAll (Pseudo.wrb chunks.flatten).expand s = .next t ∧
        t.acc = bitwise Config.fixed.poly s.acc chunks.flatten) ∧
    (execAll (chunks.flatMap fun ds => (Pseudo.wrt ds).expand) s =
        execAll (Pseudo.wrt chunks.flatten).expand s ∧
      ∃ t, execAll (Pseudo.wrt chunks.flatten).expand s = .next t ∧
        t.acc = tablecrc s.acc s.tableAt chunks.flatten)

/-- R114: issuing the words of `CRCB D` on the command port leaves `RESULT` =
`zext_64(bitwise(POLY, INIT, D))`; with a valid table the words of `CRCT D` leave the same. The run is
one with no tick listed (log 4), and from a state that still shows reset asserted its first step
releases it and runs INIT (log 11): both are the model's. That a command may be in flight for longer
is `CommandsAreIndivisible`. -/
def Obligations.OneShotComputeThroughThePort : Prop :=
  (∀ (ds : List Byte) (ws : List CmdWord) (s : State), s.ticks = [] → s.inFlight = none →
    s.commands = (Pseudo.crcb ds).expand.map encode ++ ws →
    ∃ t, runSteps (ds.length + 2) s = .next t ∧
      t.result = (bitwise Config.fixed.poly Config.fixed.init ds).setWidth 64 ∧
      t.err = s.err ∧ t.table = s.table ∧ t.commands = ws ∧ t.cix = s.cix + ds.length + 2) ∧
  (∀ (ds : List Byte) (ws : List CmdWord) (s : State), s.ticks = [] → s.inFlight = none →
    ValidTable Config.fixed s.table → s.commands = (Pseudo.crct ds).expand.map encode ++ ws →
    ∃ t, runSteps (ds.length + 2) s = .next t ∧
      t.result = (tablecrc Config.fixed.init s.tableAt ds).setWidth 64 ∧
      t.result = (bitwise Config.fixed.poly Config.fixed.init ds).setWidth 64 ∧
      t.err = s.err ∧ t.table = s.table ∧ t.commands = ws ∧ t.cix = s.cix + ds.length + 2)

/-- R115: INIT then FIN leaves `RESULT` = `zext_64(INIT)`. -/
def Obligations.EmptyInputGivesInit : Prop :=
  ∀ s : State, ∃ t, execAll [.init, .fin] s = .next t ∧
    t.result = Config.fixed.init.setWidth 64 ∧ t.acc = Config.fixed.init

/-- R116: FIN does not end the checksum: INIT, `WRB D`, FIN, `WRB E`, FIN leaves the value of D ++ E,
after the first FIN has left that of D. -/
def Obligations.FinishIsReentrant : Prop :=
  ∀ (ds es : List Byte) (s : State),
    ∃ t u, execAll (Pseudo.crcb ds).expand s = .next t ∧
      t.result = (bitwise Config.fixed.poly Config.fixed.init ds).setWidth 64 ∧
      execAll ((Pseudo.wrb es).expand ++ [.fin]) t = .next u ∧
      execAll ((Pseudo.crcb ds).expand ++ ((Pseudo.wrb es).expand ++ [.fin])) s = .next u ∧
      u.result = (bitwise Config.fixed.poly Config.fixed.init (ds ++ es)).setWidth 64

/-! ### Assembler (30_encoding.md R70 to R72) -/

/-- R72: what each pseudo-instruction expands to. -/
def Obligations.PseudoInstructionExpansions : Prop :=
  Pseudo.gen0.expand = [.gen 0x00#8] ∧
  (∀ ds : List Byte, (Pseudo.wrb ds).expand = ds.map Instr.updb ∧
    (Pseudo.wrt ds).expand = ds.map Instr.updt ∧
    (Pseudo.crcb ds).expand = [.init] ++ (Pseudo.wrb ds).expand ++ [.fin] ∧
    (Pseudo.crct ds).expand = [.init] ++ (Pseudo.wrt ds).expand ++ [.fin])

/-- R71: what the disassembler prints for a word, legal or not, assembles to that word. (The spelling
printed is the model's, log 16.) -/
def Obligations.AssemblingADisassembledWordGivesItBack : Prop :=
  ∀ w : CmdWord, assemble (disassemble w) = .ok [w]

/-- R71: the assembler never emits an illegal word for a mnemonic. -/
def Obligations.AssemblerEmitsOnlyLegalWordsForMnemonics : Prop :=
  ∀ (l : Text) (ws : List CmdWord), (lineParts l).1 ≠ wordDirective → assembleLine l = .ok ws →
    ∀ w ∈ ws, legal w = true

/-- R71: what the assembler refuses, as lines of text, and that a refusal names the line. A line is cut
into what stands first on it and the rest by `lineParts`, and the rest into its operands by
`operandGroups`. The clauses: an unknown mnemonic; an operand on INIT or FIN; for UPDB, UPDT, GEN and
TRD a missing operand, an operand outside 0..255, and more than one operand, however separated; and of
a source the first faulty line is named. That a mnemonic is compared letter by letter in upper case is
the model's (log 14); so are the separators, the reason given where several apply (counts before
ranges), and that the first of several faulty lines is named (log 15). -/
def Obligations.AssemblerRefusals : Prop :=
  (∀ (l m rest : Text), lineParts l = (m, rest) → m ≠ [] → m ≠ wordDirective →
    m.map upperChar ∉ [['I', 'N', 'I', 'T'], ['F', 'I', 'N'], ['U', 'P', 'D', 'B'],
      ['U', 'P', 'D', 'T'], ['G', 'E', 'N'], ['T', 'R', 'D'], ['G', 'E', 'N', '0'], ['W', 'R', 'B'],
      ['W', 'R', 'T'], ['C', 'R', 'C', 'B'], ['C', 'R', 'C', 'T']] →
    assembleLine l = .error .unknownMnemonic) ∧
  (∀ (l m rest : Text), lineParts l = (m, rest) →
    m.map upperChar ∈ [['I', 'N', 'I', 'T'], ['F', 'I', 'N']] → rest.all isBlank = false →
    assembleLine l = .error .unexpectedOperand) ∧
  (∀ (l m rest : Text), lineParts l = (m, rest) →
    m.map upperChar ∈ [['U', 'P', 'D', 'B'], ['U', 'P', 'D', 'T'], ['G', 'E', 'N'],
      ['T', 'R', 'D']] →
    (rest.all isBlank = true → assembleLine l = .error .missingOperand) ∧
    (∀ (t : Text) (n : Nat), operandGroups rest = [[t]] → readNumber t = some n → 255 < n →
      assembleLine l = .error .operandRange) ∧
    (2 ≤ (operandGroups rest).flatten.length → assembleLine l = .error .tooManyOperands)) ∧
  (∀ (n : Nat) (good ls : List Text) (l : Text) (r : AsmReason),
    (∀ g ∈ good, ∃ ws, assembleLine g = .ok ws) → assembleLine l = .error r →
    assembleLines n (good ++ l :: ls) = .error ⟨n + good.length, r⟩)
end

