-- ==== Sys2Proof/Laws/State.lean ====
section
/-! SUPPORT. One lemma per field per update of State, true by definition, so that no proof unfolds a
record update; and what acceptance does. -/

namespace Sys2Proof.Machine

variable (s : State)

@[simp] theorem State.setAcc_acc (v : Byte) : (s.setAcc v).acc = v := rfl
@[simp] theorem State.setAcc_result (v : Byte) : (s.setAcc v).result = s.result := rfl
@[simp] theorem State.setAcc_err (v : Byte) : (s.setAcc v).err = s.err := rfl
@[simp] theorem State.setAcc_table (v : Byte) : (s.setAcc v).table = s.table := rfl
@[simp] theorem State.setAcc_cix (v : Byte) : (s.setAcc v).cix = s.cix := rfl
@[simp] theorem State.setAcc_inFlight (v : Byte) : (s.setAcc v).inFlight = s.inFlight := rfl
@[simp] theorem State.setAcc_rst (v : Byte) : (s.setAcc v).rst = s.rst := rfl
@[simp] theorem State.setAcc_commands (v : Byte) : (s.setAcc v).commands = s.commands := rfl
@[simp] theorem State.setAcc_ticks (v : Byte) : (s.setAcc v).ticks = s.ticks := rfl
@[simp] theorem State.setAcc_draws (v : Byte) : (s.setAcc v).draws = s.draws := rfl

@[simp] theorem State.setResult_acc (v : ResultWord) : (s.setResult v).acc = s.acc := rfl
@[simp] theorem State.setResult_result (v : ResultWord) : (s.setResult v).result = v := rfl
@[simp] theorem State.setResult_err (v : ResultWord) : (s.setResult v).err = s.err := rfl
@[simp] theorem State.setResult_table (v : ResultWord) : (s.setResult v).table = s.table := rfl
@[simp] theorem State.setResult_cix (v : ResultWord) : (s.setResult v).cix = s.cix := rfl
@[simp] theorem State.setResult_inFlight (v : ResultWord) : (s.setResult v).inFlight = s.inFlight := rfl
@[simp] theorem State.setResult_rst (v : ResultWord) : (s.setResult v).rst = s.rst := rfl
@[simp] theorem State.setResult_commands (v : ResultWord) : (s.setResult v).commands = s.commands := rfl
@[simp] theorem State.setResult_ticks (v : ResultWord) : (s.setResult v).ticks = s.ticks := rfl
@[simp] theorem State.setResult_draws (v : ResultWord) : (s.setResult v).draws = s.draws := rfl

@[simp] theorem State.setTable_acc (m : Memory) : (s.setTable m).acc = s.acc := rfl
@[simp] theorem State.setTable_result (m : Memory) : (s.setTable m).result = s.result := rfl
@[simp] theorem State.setTable_err (m : Memory) : (s.setTable m).err = s.err := rfl
@[simp] theorem State.setTable_table (m : Memory) : (s.setTable m).table = m := rfl
@[simp] theorem State.setTable_cix (m : Memory) : (s.setTable m).cix = s.cix := rfl
@[simp] theorem State.setTable_inFlight (m : Memory) : (s.setTable m).inFlight = s.inFlight := rfl
@[simp] theorem State.setTable_rst (m : Memory) : (s.setTable m).rst = s.rst := rfl
@[simp] theorem State.setTable_commands (m : Memory) : (s.setTable m).commands = s.commands := rfl
@[simp] theorem State.setTable_ticks (m : Memory) : (s.setTable m).ticks = s.ticks := rfl
@[simp] theorem State.setTable_draws (m : Memory) : (s.setTable m).draws = s.draws := rfl

@[simp] theorem State.setErr_acc : (s.setErr).acc = s.acc := rfl
@[simp] theorem State.setErr_result : (s.setErr).result = s.result := rfl
@[simp] theorem State.setErr_err : (s.setErr).err = true := rfl
@[simp] theorem State.setErr_table : (s.setErr).table = s.table := rfl
@[simp] theorem State.setErr_cix : (s.setErr).cix = s.cix := rfl
@[simp] theorem State.setErr_inFlight : (s.setErr).inFlight = s.inFlight := rfl
@[simp] theorem State.setErr_rst : (s.setErr).rst = s.rst := rfl
@[simp] theorem State.setErr_commands : (s.setErr).commands = s.commands := rfl
@[simp] theorem State.setErr_ticks : (s.setErr).ticks = s.ticks := rfl
@[simp] theorem State.setErr_draws : (s.setErr).draws = s.draws := rfl

@[simp] theorem State.complete_acc : (s.complete).acc = s.acc := rfl
@[simp] theorem State.complete_result : (s.complete).result = s.result := rfl
@[simp] theorem State.complete_err : (s.complete).err = s.err := rfl
@[simp] theorem State.complete_table : (s.complete).table = s.table := rfl
@[simp] theorem State.complete_cix : (s.complete).cix = s.cix + 1 := rfl
@[simp] theorem State.complete_inFlight : (s.complete).inFlight = none := rfl
@[simp] theorem State.complete_rst : (s.complete).rst = s.rst := rfl
@[simp] theorem State.complete_commands : (s.complete).commands = s.commands := rfl
@[simp] theorem State.complete_ticks : (s.complete).ticks = s.ticks := rfl
@[simp] theorem State.complete_draws : (s.complete).draws = s.draws := rfl

@[simp] theorem State.dropTick_acc : (s.dropTick).acc = s.acc := rfl
@[simp] theorem State.dropTick_result : (s.dropTick).result = s.result := rfl
@[simp] theorem State.dropTick_err : (s.dropTick).err = s.err := rfl
@[simp] theorem State.dropTick_table : (s.dropTick).table = s.table := rfl
@[simp] theorem State.dropTick_cix : (s.dropTick).cix = s.cix := rfl
@[simp] theorem State.dropTick_inFlight : (s.dropTick).inFlight = s.inFlight := rfl
@[simp] theorem State.dropTick_rst : (s.dropTick).rst = s.rst := rfl
@[simp] theorem State.dropTick_commands : (s.dropTick).commands = s.commands := rfl
@[simp] theorem State.dropTick_ticks : (s.dropTick).ticks = s.ticks.tail := rfl
@[simp] theorem State.dropTick_draws : (s.dropTick).draws = s.draws := rfl

@[simp] theorem State.releaseReset_acc : (s.releaseReset).acc = s.acc := rfl
@[simp] theorem State.releaseReset_result : (s.releaseReset).result = s.result := rfl
@[simp] theorem State.releaseReset_err : (s.releaseReset).err = s.err := rfl
@[simp] theorem State.releaseReset_table : (s.releaseReset).table = s.table := rfl
@[simp] theorem State.releaseReset_cix : (s.releaseReset).cix = s.cix := rfl
@[simp] theorem State.releaseReset_inFlight : (s.releaseReset).inFlight = s.inFlight := rfl
@[simp] theorem State.releaseReset_rst : (s.releaseReset).rst = false := rfl
@[simp] theorem State.releaseReset_commands : (s.releaseReset).commands = s.commands := rfl
@[simp] theorem State.releaseReset_ticks : (s.releaseReset).ticks = s.ticks := rfl
@[simp] theorem State.releaseReset_draws : (s.releaseReset).draws = s.draws := rfl

@[simp] theorem State.resetBlock_acc (cfg : Config) : (s.resetBlock cfg).acc = cfg.init := rfl
@[simp] theorem State.resetBlock_result (cfg : Config) : (s.resetBlock cfg).result = 0 := rfl
@[simp] theorem State.resetBlock_err (cfg : Config) : (s.resetBlock cfg).err = false := rfl
@[simp] theorem State.resetBlock_table (cfg : Config) : (s.resetBlock cfg).table = [] := rfl
@[simp] theorem State.resetBlock_cix (cfg : Config) : (s.resetBlock cfg).cix = 0 := rfl
@[simp] theorem State.resetBlock_inFlight (cfg : Config) : (s.resetBlock cfg).inFlight = none := rfl
@[simp] theorem State.resetBlock_rst (cfg : Config) : (s.resetBlock cfg).rst = true := rfl
@[simp] theorem State.resetBlock_commands (cfg : Config) : (s.resetBlock cfg).commands = s.commands := rfl
@[simp] theorem State.resetBlock_ticks (cfg : Config) : (s.resetBlock cfg).ticks = s.ticks := rfl
@[simp] theorem State.resetBlock_draws (cfg : Config) : (s.resetBlock cfg).draws = s.draws := rfl

@[simp] theorem State.raiseIllegalCommand_acc (w : CmdWord) :
    (s.raiseIllegalCommand w).acc = s.acc := rfl
@[simp] theorem State.raiseIllegalCommand_result (w : CmdWord) :
    (s.raiseIllegalCommand w).result = s.result := rfl
@[simp] theorem State.raiseIllegalCommand_err (w : CmdWord) :
    (s.raiseIllegalCommand w).err = true := rfl
@[simp] theorem State.raiseIllegalCommand_table (w : CmdWord) :
    (s.raiseIllegalCommand w).table = s.table := rfl
@[simp] theorem State.raiseIllegalCommand_cix (w : CmdWord) :
    (s.raiseIllegalCommand w).cix = s.cix + 1 := rfl
@[simp] theorem State.raiseIllegalCommand_inFlight (w : CmdWord) :
    (s.raiseIllegalCommand w).inFlight = none := rfl
@[simp] theorem State.raiseIllegalCommand_rst (w : CmdWord) :
    (s.raiseIllegalCommand w).rst = s.rst := rfl
@[simp] theorem State.raiseIllegalCommand_commands (w : CmdWord) :
    (s.raiseIllegalCommand w).commands = s.commands := rfl
@[simp] theorem State.raiseIllegalCommand_ticks (w : CmdWord) :
    (s.raiseIllegalCommand w).ticks = s.ticks := rfl
@[simp] theorem State.raiseIllegalCommand_draws (w : CmdWord) :
    (s.raiseIllegalCommand w).draws = s.draws := rfl

/-- Everything acceptance can do: it takes the first offered word when none is in flight, and nothing
else (10_state.md R33, R36). -/
theorem State.accept_cases :
    (∃ w ws, s.inFlight = none ∧ s.commands = w :: ws ∧
      s.accept = { s with inFlight := some w, commands := ws }) ∨
    ((s.inFlight ≠ none ∨ s.commands = []) ∧ s.accept = s) := by
  unfold State.accept
  split
  · exact .inl ⟨_, _, ‹_›, ‹_›, rfl⟩
  · rename_i h
    refine .inr ⟨?_, rfl⟩
    by_cases hf : s.inFlight = none
    · cases hc : s.commands with
      | nil => exact .inr rfl
      | cons w ws => exact absurd hc (h w ws hf)
    · exact .inl hf

@[simp] theorem State.accept_acc : s.accept.acc = s.acc := by
  rcases s.accept_cases with ⟨_, _, _, _, h⟩ | ⟨_, h⟩ <;> rw [h]

@[simp] theorem State.accept_result : s.accept.result = s.result := by
  rcases s.accept_cases with ⟨_, _, _, _, h⟩ | ⟨_, h⟩ <;> rw [h]

@[simp] theorem State.accept_err : s.accept.err = s.err := by
  rcases s.accept_cases with ⟨_, _, _, _, h⟩ | ⟨_, h⟩ <;> rw [h]

@[simp] theorem State.accept_table : s.accept.table = s.table := by
  rcases s.accept_cases with ⟨_, _, _, _, h⟩ | ⟨_, h⟩ <;> rw [h]

@[simp] theorem State.accept_cix : s.accept.cix = s.cix := by
  rcases s.accept_cases with ⟨_, _, _, _, h⟩ | ⟨_, h⟩ <;> rw [h]

@[simp] theorem State.accept_rst : s.accept.rst = s.rst := by
  rcases s.accept_cases with ⟨_, _, _, _, h⟩ | ⟨_, h⟩ <;> rw [h]

@[simp] theorem State.accept_ticks : s.accept.ticks = s.ticks := by
  rcases s.accept_cases with ⟨_, _, _, _, h⟩ | ⟨_, h⟩ <;> rw [h]

@[simp] theorem State.accept_draws : s.accept.draws = s.draws := by
  rcases s.accept_cases with ⟨_, _, _, _, h⟩ | ⟨_, h⟩ <;> rw [h]

end Sys2Proof.Machine
end

