-- ==== Sys2Proof/Laws/Exec.lean ====
section
/-! SUPPORT. What exec and the completion of a word can do, each said once. -/

namespace Sys2Proof.Machine

/-- Executing a command is its effect on the one instance `step` is of. -/
theorem exec_eq_effectOf (i : Instr) (s : State) : exec i s = .next (effectOf Config.fixed i s) := by
  cases i <;> rfl

/-- Running a word is its effect on the one instance `step` is of. -/
theorem runWord_eq_wordEffectOf (w : CmdWord) (s : State) :
    runWord w s = .next (wordEffectOf Config.fixed w s) := by
  unfold runWord wordEffectOf
  cases decode w with
  | command i => exact exec_eq_effectOf i s
  | illegal v => rfl

/-- What any command leaves alone: the world outside the block, and `RST`; and how it completes. -/
theorem effectOf_frame (cfg : Config) (i : Instr) (s : State) :
    (effectOf cfg i s).err = s.err ∧ (effectOf cfg i s).cix = s.cix + 1 ∧
      (effectOf cfg i s).inFlight = none ∧ (effectOf cfg i s).rst = s.rst ∧
      (effectOf cfg i s).commands = s.commands ∧ (effectOf cfg i s).ticks = s.ticks ∧
      (effectOf cfg i s).draws = s.draws := by
  cases i <;> exact ⟨rfl, rfl, rfl, rfl, rfl, rfl, rfl⟩

/-- What any word leaves alone, legal or not, and how it completes. -/
theorem wordEffectOf_frame (cfg : Config) (w : CmdWord) (s : State) :
    (wordEffectOf cfg w s).cix = s.cix + 1 ∧ (wordEffectOf cfg w s).inFlight = none ∧
      (wordEffectOf cfg w s).rst = s.rst ∧ (wordEffectOf cfg w s).commands = s.commands ∧
      (wordEffectOf cfg w s).ticks = s.ticks ∧ (wordEffectOf cfg w s).draws = s.draws := by
  unfold wordEffectOf
  cases decode w with
  | command i => exact (effectOf_frame cfg i s).2
  | illegal v => exact ⟨rfl, rfl, rfl, rfl, rfl, rfl⟩

/-- Everything the completion of a word can do: the effect of the command it decodes to, or the one
exception. -/
theorem wordEffectOf_cases (cfg : Config) (w : CmdWord) (s : State) :
    (∃ i, decode w = .command i ∧ wordEffectOf cfg w s = effectOf cfg i s) ∨
    (∃ v, decode w = .illegal v ∧ wordEffectOf cfg w s = s.raiseIllegalCommand v) := by
  unfold wordEffectOf
  split
  · exact .inl ⟨_, ‹_›, rfl⟩
  · exact .inr ⟨_, ‹_›, rfl⟩

end Sys2Proof.Machine
end

