-- ==== Sys2Proof/Laws/HostPort.lean ====
section
/-! SUPPORT. What a host read can return, bit by bit, and what it leaves of the state. -/

namespace Sys2Proof.Machine

/-- A mixed bit is the new one where the mask has a 1, the old one where it has a 0. -/
@[simp] theorem getLsbD_mixBits {n : Nat} (mask old new : BitVec n) (k : Nat) :
    (mixBits mask old new).getLsbD k =
      if mask.getLsbD k then new.getLsbD k else old.getLsbD k := by
  by_cases hk : k < n
  · simp only [mixBits, BitVec.getLsbD_or, BitVec.getLsbD_and, BitVec.getLsbD_not, hk]
    cases mask.getLsbD k <;> simp
  · simp [BitVec.getLsbD_of_ge _ _ (Nat.le_of_not_lt hk)]

/-- Everything a read of `RESULT` can return: a free byte, zero-extended, while reset is asserted; the
register when quiescent; each bit old or new while a command is in flight (R48, R51, R156). -/
theorem readResultOf_cases (cfg : Config) (s : State) :
    (s.rst = true ∧ readResultOf cfg s = (zext64 (s.freeRead.setWidth 8), s.countDraw)) ∨
    (s.rst = false ∧ s.inFlight = none ∧ readResultOf cfg s = (s.result, s)) ∨
    (s.rst = false ∧ s.inFlight ≠ none ∧ readResultOf cfg s =
      (mixBits s.freeRead s.result (completionOf cfg s).result, s.countDraw)) := by
  unfold readResultOf
  cases hr : s.rst with
  | true => exact .inl ⟨rfl, rfl⟩
  | false =>
    cases hf : s.inFlight with
    | none => exact .inr (.inl ⟨rfl, rfl, rfl⟩)
    | some w => exact .inr (.inr ⟨rfl, nofun, rfl⟩)

end Sys2Proof.Machine
end

