-- ==== Sys2Proof/Laws/Memory.lean ====
section
/-! SUPPORT. The laws of the table store: what each operation makes an index read as, that each keeps
the canonical form, and that the form is canonical (log 10). -/

namespace Sys2Proof.Machine

variable {cfg : Config}

theorem Memory.read_insert_self (m : Memory) (i v : Byte) :
    Memory.read cfg (Memory.insert i.toNat v m) i = v := by
  induction m with
  | nil => simp [Memory.insert, Memory.read]
  | cons c m ih =>
    simp only [Memory.insert]
    split
    · simp [Memory.read]
    · split
      · simp [Memory.read]
      · rename_i h
        simpa [Memory.read, Ne.symm h] using ih

theorem Memory.read_insert_of_ne (m : Memory) {i j : Byte} (v : Byte) (h : j ≠ i) :
    Memory.read cfg (Memory.insert i.toNat v m) j = Memory.read cfg m j := by
  have hn : i.toNat ≠ j.toNat := fun e => h (BitVec.eq_of_toNat_eq e.symm)
  induction m with
  | nil => simp [Memory.insert, Memory.read, hn]
  | cons c m ih =>
    simp only [Memory.insert]
    split
    · simp [Memory.read, hn]
    · split
      · rename_i e
        simp [Memory.read, hn, ← e]
      · simp [Memory.read, ih]

theorem Memory.read_erase_self (m : Memory) (i : Byte) :
    Memory.read cfg (Memory.erase i.toNat m) i = cfg.tableResetAt i := by
  induction m with
  | nil => rfl
  | cons c m ih =>
    simp only [Memory.erase]
    split
    · exact ih
    · rename_i h
      simpa [Memory.read, Ne.symm h] using ih

theorem Memory.read_erase_of_ne (m : Memory) {i j : Byte} (h : j ≠ i) :
    Memory.read cfg (Memory.erase i.toNat m) j = Memory.read cfg m j := by
  have hn : i.toNat ≠ j.toNat := fun e => h (BitVec.eq_of_toNat_eq e.symm)
  induction m with
  | nil => rfl
  | cons c m ih =>
    simp only [Memory.erase]
    split
    · rename_i e
      simpa [Memory.read, ← e, hn] using ih
    · simp [Memory.read, ih]

/-- Everything a write does to the reads: `MemWrite(i, 1, v)` sets `TABLE[i]` to v and changes no other
entry (20_memory.md R40). -/
theorem Memory.read_write (m : Memory) (i v j : Byte) :
    (m.write cfg i v).read cfg j = if j = i then v else m.read cfg j := by
  unfold Memory.write
  by_cases hj : j = i
  · subst hj
    split
    · rename_i h
      simp [Memory.read_erase_self, h]
    · simp [Memory.read_insert_self]
  · split <;> simp [hj, Memory.read_erase_of_ne, Memory.read_insert_of_ne]

/-- The canonical form of a store that is not empty. -/
theorem Memory.wf_cons {a : Nat} {v : Byte} {m : Memory} :
    Memory.wf cfg ((a, v) :: m) = true ↔
      a < 256 ∧ v ≠ cfg.tableResetAt (BitVec.ofNat 8 a) ∧ (∀ c ∈ m, a < c.1) ∧
        Memory.wf cfg m = true := by
  simp [Memory.wf, and_assoc]

theorem Memory.mem_erase {a : Nat} {m : Memory} {c : Host.Cell} (h : c ∈ Memory.erase a m) :
    c ∈ m := by
  induction m with
  | nil => exact h
  | cons d m ih =>
    simp only [Memory.erase] at h
    split at h
    · exact List.mem_cons_of_mem _ (ih h)
    · rcases List.mem_cons.mp h with rfl | h
      · exact List.mem_cons_self ..
      · exact List.mem_cons_of_mem _ (ih h)

theorem Memory.mem_insert {a : Nat} {v : Byte} {m : Memory} {c : Host.Cell}
    (h : c ∈ Memory.insert a v m) : c = (a, v) ∨ c ∈ m := by
  induction m with
  | nil => simpa [Memory.insert] using h
  | cons d m ih =>
    simp only [Memory.insert] at h
    split at h
    · simpa using h
    · split at h
      · rcases List.mem_cons.mp h with h | h
        · exact .inl h
        · exact .inr (List.mem_cons_of_mem _ h)
      · rcases List.mem_cons.mp h with rfl | h
        · exact .inr (List.mem_cons_self ..)
        · exact (ih h).imp id (List.mem_cons_of_mem _)

theorem Memory.wf_erase {a : Nat} {m : Memory} (h : m.wf cfg = true) :
    Memory.wf cfg (Memory.erase a m) = true := by
  induction m with
  | nil => exact h
  | cons c m ih =>
    obtain ⟨hlt, hv, hall, hm⟩ := Memory.wf_cons.mp h
    simp only [Memory.erase]
    split
    · exact ih hm
    · exact Memory.wf_cons.mpr ⟨hlt, hv, fun d hd => hall d (Memory.mem_erase hd), ih hm⟩

theorem Memory.wf_insert {a : Nat} {v : Byte} {m : Memory} (ha : a < 256)
    (hv : v ≠ cfg.tableResetAt (BitVec.ofNat 8 a)) (h : m.wf cfg = true) :
    Memory.wf cfg (Memory.insert a v m) = true := by
  induction m with
  | nil => exact Memory.wf_cons.mpr ⟨ha, hv, by simp, rfl⟩
  | cons c m ih =>
    obtain ⟨hlt, hw, hall, hm⟩ := Memory.wf_cons.mp h
    simp only [Memory.insert]
    split
    · rename_i hac
      refine Memory.wf_cons.mpr ⟨ha, hv, fun d hd => ?_, h⟩
      rcases List.mem_cons.mp hd with rfl | hd
      · exact hac
      · exact Nat.lt_trans hac (hall d hd)
    · split
      · rename_i e
        subst e
        exact Memory.wf_cons.mpr ⟨ha, hv, hall, hm⟩
      · rename_i h1 h2
        refine Memory.wf_cons.mpr ⟨hlt, hw, fun d hd => ?_, ih hm⟩
        rcases Memory.mem_insert hd with rfl | hd
        · exact Nat.lt_of_le_of_ne (Nat.le_of_not_lt h1) (Ne.symm h2)
        · exact hall d hd

/-- A write keeps the canonical form. -/
theorem Memory.wf_write {m : Memory} (i v : Byte) (h : m.wf cfg = true) :
    (m.write cfg i v).wf cfg = true := by
  unfold Memory.write
  split
  · exact Memory.wf_erase h
  · exact Memory.wf_insert i.isLt (by simpa using ‹_›) h

theorem Memory.wf_foldl_write (f : Byte → Byte) (is : List Byte) {m : Memory}
    (h : m.wf cfg = true) :
    Memory.wf cfg (is.foldl (fun m i => Memory.write cfg m i (f i)) m) = true := by
  induction is generalizing m with
  | nil => exact h
  | cons i is ih => exact ih (Memory.wf_write i (f i) h)

/-- Filling the store keeps the canonical form. -/
theorem Memory.wf_fill (f : Byte → Byte) {m : Memory} (h : m.wf cfg = true) :
    (m.fill cfg f).wf cfg = true := by
  unfold Memory.fill
  exact Memory.wf_foldl_write f allIndices h

theorem Memory.read_foldl_write (f : Byte → Byte) (is : List Byte) (m : Memory) (j : Byte) :
    Memory.read cfg (is.foldl (fun m i => Memory.write cfg m i (f i)) m) j =
      if j ∈ is then f j else m.read cfg j := by
  induction is generalizing m with
  | nil => simp
  | cons i is ih =>
    rw [List.foldl_cons, ih, Memory.read_write]
    by_cases h : j ∈ is
    · simp [h]
    · by_cases e : j = i <;> simp [h, e]

theorem mem_allIndices (i : Byte) : i ∈ allIndices :=
  List.mem_map.mpr ⟨i.toNat, List.mem_range.mpr i.isLt, by simp⟩

/-- After `for i in 0..255: MemWrite(i, 1, f i)` every index i reads as `f i`. -/
@[simp] theorem Memory.read_fill (f : Byte → Byte) (m : Memory) (i : Byte) :
    (m.fill cfg f).read cfg i = f i := by
  unfold Memory.fill
  simp [Memory.read_foldl_write, mem_allIndices]

/-- An index below everything listed reads as it does after reset. -/
theorem Memory.read_of_lt {m : Memory} {i : Byte} (h : ∀ c ∈ m, i.toNat < c.1) :
    m.read cfg i = cfg.tableResetAt i := by
  induction m with
  | nil => rfl
  | cons c m ih =>
    have hc : c.1 ≠ i.toNat := Nat.ne_of_gt (h c (List.mem_cons_self ..))
    simp [Memory.read, hc, ih fun d hd => h d (List.mem_cons_of_mem _ hd)]

/-- The first entry of a store in canonical form is seen by a read. -/
theorem Memory.read_head {a : Nat} {v : Byte} {m : Memory}
    (h : Memory.wf cfg ((a, v) :: m) = true) :
    Memory.read cfg ((a, v) :: m) (BitVec.ofNat 8 a) = v := by
  have ha : (BitVec.ofNat 8 a).toNat = a := by
    simpa using Nat.mod_eq_of_lt (Memory.wf_cons.mp h).1
  simp [Memory.read, ha]

/-- The form is canonical: two stores in it that read alike are equal. -/
theorem Memory.ext_of_wf {m n : Memory} (hm : m.wf cfg = true) (hn : n.wf cfg = true)
    (h : ∀ i : Byte, m.read cfg i = n.read cfg i) : m = n := by
  induction m generalizing n with
  | nil =>
    cases n with
    | nil => rfl
    | cons c n =>
      have hr := Memory.read_head hn
      rw [← h] at hr
      exact absurd hr.symm (Memory.wf_cons.mp hn).2.1
  | cons c m ih =>
    cases n with
    | nil =>
      have hr := Memory.read_head hm
      rw [h] at hr
      exact absurd hr.symm (Memory.wf_cons.mp hm).2.1
    | cons d n =>
      obtain ⟨a, v⟩ := c
      obtain ⟨b, w⟩ := d
      obtain ⟨ha, hv, hma, hm'⟩ := Memory.wf_cons.mp hm
      obtain ⟨hb, hw, hnb, hn'⟩ := Memory.wf_cons.mp hn
      have hra := Memory.read_head hm
      have hrb := Memory.read_head hn
      have ea : (BitVec.ofNat 8 a).toNat = a := by simpa using Nat.mod_eq_of_lt ha
      have eb : (BitVec.ofNat 8 b).toNat = b := by simpa using Nat.mod_eq_of_lt hb
      have hab : a = b := by
        rcases Nat.lt_trichotomy a b with hlt | rfl | hgt
        · rw [h, Memory.read_of_lt fun c hc => ?_] at hra
          · exact absurd hra.symm hv
          · rcases List.mem_cons.mp hc with rfl | hc
            · simpa [ea] using hlt
            · rw [ea]
              exact Nat.lt_trans hlt (hnb c hc)
        · rfl
        · rw [← h, Memory.read_of_lt fun c hc => ?_] at hrb
          · exact absurd hrb.symm hw
          · rcases List.mem_cons.mp hc with rfl | hc
            · simpa [eb] using hgt
            · rw [eb]
              exact Nat.lt_trans hgt (hma c hc)
      subst hab
      have hvw : v = w := by rw [← hra, h, hrb]
      subst hvw
      refine congrArg _ (ih hm' hn' fun i => ?_)
      by_cases hi : a = i.toNat
      · rw [Memory.read_of_lt fun c hc => hi ▸ hma c hc,
          Memory.read_of_lt fun c hc => hi ▸ hnb c hc]
      · simpa [Memory.read, hi] using h i

end Sys2Proof.Machine
end

