-- ==== Sys2Proof/Laws/PerInstr.lean ====
section
/-! SUPPORT. Families of statements with one lemma per constructor of Instr. -/

namespace Sys2Proof.Laws

/-- The word of the instruction is legal (30_encoding.md R64, R71: the assembler never emits an
illegal word for a mnemonic). -/
def EncodeLegal.Statement (i : Instr) : Prop := legal (encode i) = true

theorem EncodeLegal.init : EncodeLegal.Statement .init := by
  unfold EncodeLegal.Statement
  decide

theorem EncodeLegal.updb (b : Byte) : EncodeLegal.Statement (.updb b) := by
  unfold EncodeLegal.Statement
  revert b
  decide

theorem EncodeLegal.updt (b : Byte) : EncodeLegal.Statement (.updt b) := by
  unfold EncodeLegal.Statement
  revert b
  decide

theorem EncodeLegal.fin : EncodeLegal.Statement .fin := by
  unfold EncodeLegal.Statement
  decide

theorem EncodeLegal.gen (g : Byte) : EncodeLegal.Statement (.gen g) := by
  unfold EncodeLegal.Statement
  revert g
  decide

theorem EncodeLegal.trd (i : Byte) : EncodeLegal.Statement (.trd i) := by
  unfold EncodeLegal.Statement
  revert i
  decide

end Sys2Proof.Laws
end

