-- ==== Sys2Proof/Laws/Run.lean ====
section
/-! SUPPORT. Runs, one step at a time; acceptance beside the tick and the reset
line; and sequences of commands. -/

namespace Sys2Proof.Machine

/-- Using up the tick and releasing reset do not matter to acceptance. -/
theorem State.accept_releaseReset_dropTick (s : State) :
    s.dropTick.releaseReset.accept = s.accept.dropTick.releaseReset := by
  obtain ⟨_, _, _, _, _, f, _, ws, _, _⟩ := s
  cases f <;> cases ws <;> rfl

/-- A second acceptance takes nothing: a command is in flight, or none is offered. -/
theorem State.accept_accept (s : State) : s.accept.accept = s.accept := by
  obtain ⟨_, _, _, _, _, f, _, ws, _, _⟩ := s
  cases f <;> cases ws <;> rfl

/-- The first step of a run. -/
theorem runSteps_succ {s t : State} (h : step s = .next t) (k : Nat) :
    runSteps (k + 1) s = runSteps k t := by
  simp only [runSteps, h]

/-- A run of one step. -/
theorem runSteps_one (s : State) : runSteps 1 s = step s := by
  simp only [runSteps]
  cases step s <;> rfl

/-- A run in two parts. -/
theorem runSteps_add {s t : State} {j : Nat} (h : runSteps j s = .next t) (k : Nat) :
    runSteps (j + k) s = runSteps k t := by
  induction j generalizing s with
  | zero =>
    cases h
    rw [Nat.zero_add]
  | succ j ih =>
    rw [Nat.succ_add]
    simp only [runSteps] at h ⊢
    split at h
    · exact ih h
    · cases h
    · cases h

/-- A sequence of words, taken one word at a time. -/
theorem runWords_cons (w : CmdWord) (ws : List CmdWord) (s : State) :
    runWords (w :: ws) s = runWords ws (wordEffectOf Config.fixed w s) := by
  simp only [runWords, runWord_eq_wordEffectOf]

/-- One sequence of words after another. -/
theorem runWords_append {vs : List CmdWord} {s t : State} (h : runWords vs s = .next t)
    (ws : List CmdWord) : runWords (vs ++ ws) s = runWords ws t := by
  induction vs generalizing s with
  | nil =>
    cases h
    rfl
  | cons v vs ih =>
    rw [runWords_cons] at h
    rw [List.cons_append, runWords_cons]
    exact ih h

/-- A sequence of commands, taken one command at a time. -/
theorem execAll_cons (i : Instr) (is : List Instr) (s : State) :
    execAll (i :: is) s = execAll is (effectOf Config.fixed i s) := by
  simp only [execAll, exec_eq_effectOf]

/-- One sequence of commands after another. -/
theorem execAll_append {is : List Instr} {s t : State} (h : execAll is s = .next t)
    (js : List Instr) : execAll (is ++ js) s = execAll js t := by
  induction is generalizing s with
  | nil =>
    cases h
    rfl
  | cons i is ih =>
    rw [execAll_cons] at h
    rw [List.cons_append, execAll_cons]
    exact ih h

end Sys2Proof.Machine
end

