-- ==== Sys2Proof/Tests/Slice0.lean ====
section
/-! SUPPORT. Tests: words written out from 30_encoding.md R61 and R63, single steps with the values of
95_test_vectors.md, and for every statement with hypotheses a state that meets them. -/

namespace Sys2Proof.Tests

open Sys2Proof Sys2Proof.Machine

/-! ### Well-formedness: one ill-formed word for each check -/

theorem test_legal_refuses_op_zero : legal 0x0000#16 = false := by decide
theorem test_legal_refuses_op_seven : legal 0x7000#16 = false := by decide
theorem test_legal_refuses_rsv : legal 0x2100#16 = false := by decide
theorem test_legal_refuses_init_operand : legal 0x1001#16 = false := by decide
theorem test_legal_refuses_fin_operand : legal 0x4080#16 = false := by decide
theorem test_legal_refuses_init_rsv : legal 0x1100#16 = false := by decide
theorem test_rsvClear_refuses : rsvClear 0x6F00#16 = false := by decide
theorem test_opTakesByte_refuses : opTakesByte 0x8000#16 = false := by decide
theorem test_legal_takes_trd : legal 0x60FF#16 = true := by decide

/-! ### Decoding: each constructor from a word written out bit by bit (R61, R63) -/

theorem test_decode_init : decode 0b0001000000000000#16 = .command .init := by decide
theorem test_decode_updb : decode 0b0010000010110100#16 = .command (.updb 0xB4#8) := by decide
theorem test_decode_updt : decode 0b0011000010110100#16 = .command (.updt 0xB4#8) := by decide
theorem test_decode_fin : decode 0b0100000000000000#16 = .command .fin := by decide
theorem test_decode_gen : decode 0b0101000011111111#16 = .command (.gen 0xFF#8) := by decide
theorem test_decode_trd : decode 0b0110000000000001#16 = .command (.trd 0x01#8) := by decide
theorem test_decode_illegal_ffff : decode 0xFFFF#16 = .illegal 0xFFFF#16 := by decide
theorem test_decodeTableWord_updt : decodeTableWord 16 0x30B4 = some (.updt 0xB4#8) := by decide
theorem test_decodeTableWord_refuses : decodeTableWord 16 0x1001 = none := by decide

/-! ### The functions (95_test_vectors.md 2.1, 2.2, 2.4) -/

theorem test_shift1_top_bit : shift1 0x80#8 0x07#8 = 0x07#8 := by decide
theorem test_shift1_no_top_bit : shift1 0x7F#8 0x07#8 = 0xFE#8 := by decide
theorem test_step8_trace : step8 0x80#8 0x07#8 = 0x89#8 := by decide
theorem test_bitwise_check_value :
    bitwise 0x31#8 0xFF#8 [0x31#8, 0x32#8, 0x33#8, 0x34#8, 0x35#8, 0x36#8, 0x37#8, 0x38#8, 0x39#8] =
      0xF7#8 := by decide +kernel
theorem test_tablecrc_identity : tablecrc 0x12#8 id [0x34#8] = 0x26#8 := by decide
theorem test_gen_entry : gen 0x07#8 0xFF#8 0x10#8 = 0x83#8 := by decide

/-! ### One step of each command (95_test_vectors.md 2.2 to 2.8) -/

/-- An instance with the given `POLY` and `INIT` and a `TABLE_RESET` of 256 zero bytes. -/
def cfgOf (poly init : Byte) : Config :=
  ⟨poly, init, Vector.replicate 256 0x00#8, .activeHigh, default⟩

/-- The state after reset of that instance, with another accumulator. -/
def stateOf (acc : Byte) : State := { State.resetOf (cfgOf 0x07#8 0x00#8) with acc := acc }

/-- One step of an instance on one offered word. -/
def after (cfg : Config) (s : State) (w : CmdWord) : State := stepOf cfg (s.offerNext w)

theorem test_updb_example : (after (cfgOf 0x07#8 0x00#8) (stateOf 0x00#8) 0x20B4#16).acc = 0x05#8 := by
  decide
theorem test_updb_poly31 : (after (cfgOf 0x31#8 0x00#8) (stateOf 0xFF#8) 0x2000#16).acc = 0xAC#8 := by
  decide
theorem test_updt_listed_entry :
    (after (cfgOf 0x07#8 0x00#8) { stateOf 0x05#8 with table := [(0x03, 0x09#8), (0x06, 0x12#8)] }
      0x3006#16).acc = 0x09#8 := by decide
theorem test_updt_zero_table : (after (cfgOf 0x07#8 0x00#8) (stateOf 0x55#8) 0x30B4#16).acc = 0x00#8 := by
  decide
theorem test_gen_example :
    (genEffect (cfgOf 0x07#8 0x00#8) 0x00#8 (stateOf 0x5F#8)).table.read (cfgOf 0x07#8 0x00#8) 0x80#8 =
      0x89#8 := by
  simp only [genEffect, State.complete_table, State.setTable_table, Memory.read_fill]
  decide
theorem test_gen_ff_entry_zero :
    (genEffect (cfgOf 0x07#8 0xFF#8) 0xFF#8 (stateOf 0x5F#8)).table.read (cfgOf 0x07#8 0xFF#8) 0x00#8 =
      0xF3#8 := by
  simp only [genEffect, State.complete_table, State.setTable_table, Memory.read_fill]
  decide
theorem test_trd_listed_entry :
    (after (cfgOf 0x07#8 0x00#8) { stateOf 0x66#8 with table := [(0xFF, 0xF3#8)] } 0x60FF#16).result =
      0x00000000000000F3#64 := by decide
theorem test_init_param : (after (cfgOf 0x07#8 0xA5#8) (stateOf 0x00#8) 0x1000#16).acc = 0xA5#8 := by
  decide
theorem test_fin_zero_extends :
    (after (cfgOf 0x07#8 0x00#8) (stateOf 0xFF#8) 0x4000#16).result = 0x00000000000000FF#64 := by decide
theorem test_illegal_init_keeps_acc :
    after (cfgOf 0x07#8 0x00#8) (stateOf 0xD4#8) 0x1001#16 =
      { stateOf 0xD4#8 with err := true, cix := 1 } := by decide
theorem test_status_after_illegal :
    (after (cfgOf 0x07#8 0x00#8) (stateOf 0xD4#8) 0x7000#16).status = 0x01#8 := by decide
theorem test_reset_during_gen :
    (stepOf (cfgOf 0x07#8 0x5A#8)
      { stateOf 0x11#8 with inFlight := some 0x5000#16, ticks := [.reset], err := true }) =
      { stateOf 0x5A#8 with rst := true } := by decide

/-- The first step after reset on a word placed by `withFetchWord` runs exactly that word. -/
theorem test_step_runs_placed_word :
    step (State.reset.withFetchWord 16 0x20B4) =
      exec (.updb 0xB4#8) { State.reset with inFlight := some 0x20B4#16 } := by rfl

/-! ### The table store's write (log 10) -/

theorem test_write_lists_in_order :
    Memory.write (cfgOf 0x07#8 0x00#8) [(0x01, 0x07#8), (0x80, 0x89#8)] 0x02#8 0x0E#8 =
      [(0x01, 0x07#8), (0x02, 0x0E#8), (0x80, 0x89#8)] := by decide
theorem test_write_of_reset_byte_unlists :
    Memory.write (cfgOf 0x07#8 0x00#8) [(0x01, 0x07#8), (0x80, 0x89#8)] 0x01#8 0x00#8 =
      [(0x80, 0x89#8)] := by decide

/-! ### Assembler (R70 to R72) -/

theorem test_assemble_updb : assembleLine ['U', 'P', 'D', 'B', ' ', '0', 'x', 'B', '4'] = .ok [0x20B4#16] := by
  decide
theorem test_assemble_decimal_lower_case :
    assembleLine ['u', 'p', 'd', 't', ' ', '3', '8', ' ', ';', 'c'] = .ok [0x3026#16] := by decide
theorem test_assemble_crcb :
    assembleLine ['C', 'R', 'C', 'B', ' ', '1', ',', ' ', '2'] =
      .ok [0x1000#16, 0x2001#16, 0x2002#16, 0x4000#16] := by decide
theorem test_assemble_word :
    assembleLine ['.', 'w', 'o', 'r', 'd', ' ', '0', 'x', '7', '0', '0', '0'] = .ok [0x7000#16] := by decide
theorem test_assemble_names_the_line :
    assemble ['F', 'I', 'N', '\n', 'G', 'E', 'N', ' ', '2', '5', '6'] = .error ⟨2, .operandRange⟩ := by decide
theorem test_disassemble_illegal :
    disassemble 0x10A5#16 = ['.', 'w', 'o', 'r', 'd', ' ', '0', 'x', '1', '0', 'A', '5'] := by decide

/-! ### Hypotheses that are met

One theorem for each statement with hypotheses, a clause each where they differ. -/

/-- A valid table for any instance, as after GEN 0x00. -/
def validTable (cfg : Config) : Memory := Memory.fill cfg (gen cfg.poly 0x00#8) []

theorem validTable_valid (cfg : Config) : ValidTable cfg (validTable cfg) := fun i => by
  simp [validTable]

/-- A state of `step`'s instance with one word offered and one waiting. -/
def offering (w : CmdWord) : State := { State.reset with commands := [w, 0x4000#16] }

/-- A state of `step`'s instance with a word in flight. -/
def carrying (w : CmdWord) : State := { State.reset with inFlight := some w }

theorem witness_EncodingAndDecodingAreInverse : legal 0x60FF#16 = true := by decide

theorem witness_LegalWordsAreExactlyTheCommands :
    legal 0x1000#16 = true ∧ legal 0x6000#16 = true ∧ legal 0x10FF#16 = false := by decide

theorem witness_DecodingFollowsMatchAndMask :
    (0x0FFF#16).extractLsb' 12 4 = 0#4 ∧ 7#4 ≤ (0x7000#16).extractLsb' 12 4 := by decide

theorem witness_StepRunsTheDecodedCommand :
    ((offering 0x20B4#16).tick = .run ∧ (offering 0x20B4#16).inFlight = none ∧
      (offering 0x20B4#16).commands = 0x20B4#16 :: [0x4000#16] ∧
      decode 0x20B4#16 = .command (.updb 0xB4#8)) ∧
    ((carrying 0x5000#16).tick = .run ∧ (carrying 0x5000#16).inFlight = some 0x5000#16 ∧
      decode 0x5000#16 = .command (.gen 0x00#8)) ∧
    decodeTableWord 16 0x60FF = some (.trd 0xFF#8) :=
  ⟨⟨rfl, rfl, rfl, by decide⟩, ⟨rfl, rfl, by decide⟩, by decide⟩

theorem witness_StepReadsOnlyPolyInitAndTableReset :
    ∃ c d : Config, c ≠ d ∧ c.poly = d.poly ∧ c.init = d.init ∧ c.tableReset = d.tableReset :=
  ⟨cfgOf 0x07#8 0x00#8, { cfgOf 0x07#8 0x00#8 with rstPolarity := .activeLow },
    fun h => absurd (congrArg Config.rstPolarity h) (by decide), rfl, rfl, rfl⟩

theorem witness_CixCountsCompletedCommandsAndIsNeverRead :
    (∃ s t, step s = .next t ∧ s.tick = .reset) ∧
    (∃ s t, step s = .next t ∧ s.tick ≠ .reset ∧ s.wordToRun ≠ none) ∧
    (∃ s t, step s = .next t ∧ s.tick ≠ .reset ∧ s.wordToRun = none) ∧
    (∃ (s t u : State) (n : Nat), step s = .next t ∧ step { s with cix := n } = .next u) :=
  ⟨⟨{ State.reset with ticks := [.reset] }, _, rfl, rfl⟩,
    ⟨offering 0x4000#16, _, rfl, by decide, by decide⟩,
    ⟨State.reset, _, rfl, by decide, by decide⟩, ⟨offering 0x4000#16, _, _, 5, rfl, rfl⟩⟩

theorem witness_StateIsHeldBetweenCommands :
    State.reset.tick ≠ .reset ∧ State.reset.inFlight = none ∧ State.reset.commands = [] := by decide

theorem witness_InitReseedsTheAccumulator :
    (0xFF#8 : Byte) ≠ 0 ∧ (cfgOf 0x07#8 0x00#8).init = 0x00#8 ∧ (stateOf 0x5F#8).acc = 0x5F#8 := by decide

theorem witness_UpdbFoldsAByteWithStep8 :
    ((0x0F#8 : Byte) ≠ 0 ∧ (0x0F#8).toNat < 16) ∧ (stateOf 0x5F#8).acc ^^^ 0x5F#8 = 0x00#8 ∧
    (cfgOf 0x00#8 0x00#8).poly = 0x00#8 ∧
    ((cfgOf 0x07#8 0x00#8).poly = 0x07#8 ∧ (stateOf 0x00#8).acc = 0x00#8) := by decide

theorem witness_UpdtLooksUpTheTable :
    (stateOf 0xFF#8).acc ^^^ 0xFF#8 = 0x00#8 ∧
    (∃ s : State, (cfgOf 0x07#8 0x00#8).poly = 0x07#8 ∧ ValidTable (cfgOf 0x07#8 0x00#8) s.table ∧
      s.acc = 0x00#8 ∧ s.acc ^^^ 0x00#8 = 0x00#8) ∧
    (∃ c d : Config, c.tableReset = d.tableReset ∧ c ≠ d) :=
  ⟨by decide, ⟨{ stateOf 0x00#8 with table := validTable _ }, rfl, validTable_valid _, rfl, rfl⟩,
    cfgOf 0x07#8 0x00#8, cfgOf 0x31#8 0x00#8, rfl,
    fun h => absurd (congrArg Config.poly h) (by decide)⟩

theorem witness_FinPublishesTheChecksum :
    ∃ t u, (stateOf 0x5F#8).acc = 0x5F#8 ∧ exec .fin (stateOf 0x5F#8) = .next t ∧
      exec .fin t = .next u :=
  ⟨_, _, rfl, rfl, rfl⟩

theorem witness_GenFillsTheTable :
    (cfgOf 0x00#8 0x00#8).poly = 0x00#8 ∧ (cfgOf 0x07#8 0x00#8).poly = 0x07#8 := by decide

theorem witness_TrdReadsOneEntry :
    (∃ t, exec (.trd 0xFF#8) State.reset = .next t) ∧
    (∃ t, execAll [.trd 0x01#8, .fin] State.reset = .next t) ∧
    (∃ s : State, (cfgOf 0x07#8 0x00#8).poly = 0x07#8 ∧ ValidTable (cfgOf 0x07#8 0x00#8) s.table) :=
  ⟨⟨_, rfl⟩, ⟨_, rfl⟩, { stateOf 0x00#8 with table := validTable _ }, rfl, validTable_valid _⟩

theorem witness_CommandFrames :
    ∃ t u v, exec (.trd 0x00#8) State.reset = .next t ∧ exec .init State.reset = .next u ∧
      exec .fin State.reset = .next v :=
  ⟨_, _, _, rfl, rfl, rfl⟩

theorem witness_OnlyIllegalWordsRaise : decode 0x1001#16 = .illegal 0x1001#16 := by decide

theorem witness_IllegalWordSetsErrAndNothingElse :
    ((carrying 0x1001#16).tick = .run ∧ (carrying 0x1001#16).inFlight = some 0x1001#16 ∧
      legal 0x1001#16 = false) ∧
    ((offering 0x7000#16).tick = .run ∧ (offering 0x7000#16).inFlight = none ∧
      (offering 0x7000#16).commands = 0x7000#16 :: [0x4000#16] ∧ legal 0x7000#16 = false) :=
  ⟨⟨rfl, rfl, by decide⟩, rfl, rfl, rfl, by decide⟩

theorem witness_ErrIsSticky :
    (∃ t, step (offering 0xFFFF#16) = .next t ∧ (offering 0xFFFF#16).err = false ∧ t.err = true) ∧
    (∃ s t, step s = .next t ∧ s.err = true ∧ t.err = false) ∧
    (∃ t, step (offering 0x4000#16) = .next t ∧ (offering 0x4000#16).wordToRun = some 0x4000#16 ∧
      legal 0x4000#16 = true) :=
  ⟨⟨_, rfl, rfl, rfl⟩, ⟨{ State.reset with err := true, ticks := [.reset] }, _, rfl, rfl, rfl⟩,
    ⟨_, rfl, rfl, by decide⟩⟩

theorem witness_LegalWordsKeepTheRunClean :
    ∃ t, (offering 0x1000#16).OnlyLegalWords ∧ (offering 0x1000#16).Clean ∧
      step (offering 0x1000#16) = .next t :=
  ⟨_, ⟨fun w h => by simp [offering, State.reset, State.resetOf] at h, fun w h => by
    simp only [offering, List.mem_cons, List.not_mem_nil, or_false] at h
    rcases h with rfl | rfl <;> decide⟩, rfl, rfl⟩

theorem witness_AccIsWrittenOnlyByInitUpdbUpdtAndReset :
    ∃ t, step { offering 0x1000#16 with acc := ~~~Config.fixed.init } = .next t ∧
      t.acc ≠ ~~~Config.fixed.init :=
  ⟨_, rfl, fun h => absurd h ((by decide : ∀ x : Byte, x ≠ ~~~x) Config.fixed.init)⟩

theorem witness_ResultIsWrittenOnlyByFinTrdAndReset :
    (∃ s t, step s = .next t ∧ s.tick = .reset) ∧
    (∃ t, step { offering 0x4000#16 with result := 0x0100#64 } = .next t ∧
      (offering 0x4000#16).wordToRun = some 0x4000#16 ∧ decode 0x4000#16 = .command .fin ∧
      t.result ≠ 0x0100#64) ∧
    (∃ t, step (offering 0x60FF#16) = .next t ∧ (offering 0x60FF#16).wordToRun = some 0x60FF#16 ∧
      decode 0x60FF#16 = .command (.trd 0xFF#8)) :=
  ⟨⟨{ State.reset with ticks := [.reset] }, _, rfl, rfl⟩,
    ⟨_, rfl, rfl, by decide, fun h => absurd h
      ((by decide : ∀ x : Byte, x.setWidth 64 ≠ 0x0100#64) Config.fixed.init)⟩,
    ⟨_, rfl, rfl, by decide⟩⟩

theorem witness_TableIsReadOnlyOutsideGenAndReset :
    ∃ s t, step s = .next t ∧ t.table ≠ s.table :=
  ⟨{ State.reset with table := [(0, 0x01#8)], ticks := [.reset] }, _, rfl,
    fun h => absurd (congrArg List.length h) (by decide)⟩

theorem witness_EveryStepKeepsTheInvariant :
    ∃ t, (offering 0x4000#16).Inv Config.fixed ∧ step (offering 0x4000#16) = .next t :=
  ⟨_, ⟨rfl, by decide, fun h => absurd h (by decide)⟩, rfl⟩

theorem witness_ResetValues : ({ State.reset with rst := true } : State).rst = true := rfl

theorem witness_ResetSetsEveryPieceOfState :
    (∃ s : State, s.tick = .reset ∧ s.inFlight = some 0x5000#16) ∧
    (∃ s t, step s = .next t ∧ s.err = true ∧ t.err = false) ∧
    (∃ s t, step s = .next t ∧ ∃ i : Byte, t.tableAt i ≠ s.tableAt i) :=
  ⟨⟨{ carrying 0x5000#16 with ticks := [.reset] }, rfl, rfl⟩,
    ⟨{ State.reset with err := true, ticks := [.reset] }, _, rfl, rfl, rfl⟩,
    ⟨{ State.reset with table := [(0, ~~~Config.fixed.tableResetAt 0x00#8)], ticks := [.reset] }, _, rfl,
      0x00#8, fun h => absurd h
        ((by decide : ∀ x : Byte, x ≠ ~~~x) (Config.fixed.tableResetAt 0x00#8))⟩⟩

/-- The state a step with reset asserted leaves, with one word offered. -/
def inReset (ticks : List Tick) (commands : List CmdWord) : State :=
  { State.reset with rst := true, ticks := ticks, commands := commands }

theorem inReset_inv (ticks : List Tick) (commands : List CmdWord) :
    (inReset ticks commands).Inv Config.fixed :=
  ⟨rfl, by simp [inReset, State.reset, State.resetOf],
    fun _ => ⟨rfl, rfl, rfl, fun _ => rfl, rfl, rfl⟩⟩

theorem witness_ReleaseOfResetKeepsTheState :
    (∃ s t, s.tick = .reset ∧ step s = .next t) ∧
    (∃ s : State, s.Inv Config.fixed ∧ s.rst = true ∧ s.tick ≠ .reset ∧ s.commands = []) ∧
    (∃ s : State, s.Inv Config.fixed ∧ s.rst = true ∧ s.tick = .accept ∧
      s.commands = 0x1000#16 :: []) :=
  ⟨⟨inReset [.reset] [], _, rfl, rfl⟩, ⟨inReset [] [], inReset_inv _ _, rfl, by decide, rfl⟩,
    ⟨inReset [.accept] [0x1000#16], inReset_inv _ _, rfl, rfl, rfl⟩⟩

theorem witness_ResetAbandonsTheCommandInFlight :
    ∃ t u, runSteps (1 + 1)
        { offering 0xFFFF#16 with ticks := List.replicate 1 .accept ++ .reset :: [] } = .next t ∧
      step { offering 0xFFFF#16 with ticks := .reset :: [] } = .next u :=
  ⟨_, _, rfl, rfl⟩

theorem witness_AWordIsAcceptedExactlyOnce :
    (∃ s t, step s = .next t ∧ s.tick = .reset) ∧
    (∃ t, step (carrying 0x4000#16) = .next t ∧ (carrying 0x4000#16).inFlight ≠ none) ∧
    (∃ t, step (offering 0x4000#16) = .next t ∧ (offering 0x4000#16).tick ≠ .reset ∧
      (offering 0x4000#16).cmdReady = true ∧ t.commands ≠ (offering 0x4000#16).commands) ∧
    (∃ s t, step s = .next t ∧ s.tick = .accept ∧ s.cmdReady = true) ∧
    (∃ s t, step s = .next t ∧ s.tick = .accept ∧ s.rst = true ∧ s.inFlight = none) :=
  ⟨⟨{ State.reset with ticks := [.reset] }, _, rfl, rfl⟩, ⟨_, rfl, by decide⟩,
    ⟨_, rfl, by decide, rfl, fun h => absurd (congrArg List.length h) (by decide)⟩,
    ⟨{ offering 0x4000#16 with ticks := [.accept] }, _, rfl, rfl, rfl⟩,
    ⟨{ offering 0x4000#16 with ticks := [.accept], rst := true }, _, rfl, rfl, rfl, rfl⟩⟩

theorem witness_CommandsAreIndivisible :
    ∃ s t, s.tick = .accept ∧ step s = .next t :=
  ⟨{ offering 0x5000#16 with ticks := [.accept] }, _, rfl, rfl⟩

theorem witness_CommandsTakeEffectInOrder :
    (∃ s : State, s.ticks = [] ∧ s.inFlight = none ∧ s.rst = false ∧
      s.commands = [0x5000#16, 0x7000#16, 0x30B4#16] ++ [0xFFFF#16]) ∧
    (∃ t, legal 0x7000#16 = false ∧ runWords [0x5000#16, 0x1001#16] State.reset = .next t) :=
  ⟨⟨{ State.reset with commands := [0x5000#16, 0x7000#16, 0x30B4#16, 0xFFFF#16] }, rfl, rfl, rfl, rfl⟩,
    _, by decide, by rw [runWords_cons, runWords_cons]; rfl⟩

theorem witness_QuiescentReadsReturnTheRegisters : State.reset.cmdReady = true := by decide

theorem witness_ReadsInFlightAreOldOrNewPerBit :
    ∃ t, (carrying 0x4000#16).rst = false ∧ (carrying 0x4000#16).inFlight = some 0x4000#16 ∧
      step { carrying 0x4000#16 with ticks := [] } = .next t :=
  ⟨_, rfl, rfl, rfl⟩

theorem witness_ResultBytesAreLittleEndian :
    (7 < 8 ∧ State.reset.Inv Config.fixed ∧ (7 : Fin 8) ≠ 0) ∧
    ((inReset [] []).Inv Config.fixed ∧ (inReset [] []).rst = true) ∧
    ((carrying 0x4000#16).Inv Config.fixed ∧ (carrying 0x4000#16).inFlight ≠ none) ∧
    ∃ t, exec .fin State.reset = .next t :=
  ⟨⟨by decide, ⟨rfl, by decide, fun h => absurd h (by decide)⟩, by decide⟩, ⟨inReset_inv _ _, rfl⟩,
    ⟨⟨rfl, by decide, fun h => absurd h (by decide)⟩, by decide⟩, _, rfl⟩

/-- A read in reset has bytes 1 to 7 at 0 (R48), whatever the free value. -/
theorem test_read_in_reset_upper_bytes :
    (readResult (inReset [] [])).1.extractLsb' 8 56 = 0 := by
  have h : ∀ b : Byte, (zext64 b).extractLsb' 8 56 = 0 := by decide
  exact h _

theorem witness_TableWritesAreIndependent :
    Memory.wf (cfgOf 0x07#8 0x00#8) [(0x00, 0x01#8), (0xFF, 0xF3#8)] = true ∧ (0xFF#8 : Byte) ≠ 0x00#8 := by
  decide

theorem witness_ReadsAreIdempotentAndGenIsToo :
    (∃ t u, exec (.trd 0x00#8) State.reset = .next t ∧ exec (.trd 0x00#8) t = .next u) ∧
    (∃ t, exec (.updt 0x00#8) State.reset = .next t) ∧
    (∃ t u, State.reset.Inv Config.fixed ∧ exec (.gen 0x00#8) State.reset = .next t ∧
      exec (.gen 0x00#8) t = .next u) :=
  ⟨⟨_, _, rfl, rfl⟩, ⟨_, rfl⟩, _, _, ⟨rfl, by decide, fun h => absurd h (by decide)⟩, rfl, rfl⟩

theorem witness_PolynomialZeroGivesZero : [0x00#8] ≠ ([] : List Byte) := by decide

theorem witness_EnginesAgreeOnAValidTable :
    (∃ s : State, ValidTable (cfgOf 0x07#8 0x00#8) s.table) ∧
    (∃ s : State, ValidTable Config.fixed s.table) :=
  ⟨⟨{ State.reset with table := validTable _ }, validTable_valid _⟩,
    { State.reset with table := validTable _ }, validTable_valid _⟩

theorem witness_EnginesAgreeExactlyOnValidTables :
    (∃ m : Memory, ValidTable (cfgOf 0x07#8 0x00#8) m) ∧
    (∃ s : State, s.table = [] ∧ s.acc = 0x01#8 ∧
      Memory.read (cfgOf 0x07#8 0x00#8) [] 0x01#8 ≠ step8 0x01#8 (cfgOf 0x07#8 0x00#8).poly) :=
  ⟨⟨_, validTable_valid _⟩, stateOf 0x01#8, rfl, rfl, by decide⟩

theorem witness_WhenAGeneratedTableIsValid : (0x07#8).getLsbD 0 = true := by decide

theorem witness_EnginesMixFreelyOnAValidTable : ∃ s : State, ValidTable Config.fixed s.table :=
  ⟨{ State.reset with table := validTable _ }, validTable_valid _⟩

theorem witness_ValidTablesAreLinear :
    ∃ t : Byte → Byte, (∀ a b, t (a ^^^ b) = t a ^^^ t b) ∧
      ∀ k, k < 8 → t (0x01#8 <<< k) = gen 0x00#8 0x00#8 (0x01#8 <<< k) :=
  ⟨fun _ => 0x00#8, fun _ _ => by simp,
    fun k _ => (by decide +kernel : ∀ x : Byte, 0x00#8 = gen 0x00#8 0x00#8 x) (0x01#8 <<< k)⟩

theorem witness_OneShotComputeThroughThePort :
    (∃ s : State, s.ticks = [] ∧ s.inFlight = none ∧
      s.commands = (Pseudo.crcb [0xB4#8, 0x06#8]).expand.map encode ++ [0x7000#16]) ∧
    (∃ s : State, s.ticks = [] ∧ s.inFlight = none ∧ ValidTable Config.fixed s.table ∧
      s.commands = (Pseudo.crct []).expand.map encode ++ []) :=
  ⟨⟨{ State.reset with commands := [0x1000#16, 0x20B4#16, 0x2006#16, 0x4000#16, 0x7000#16] }, rfl, rfl,
      by decide⟩,
    { State.reset with table := validTable _, commands := [0x1000#16, 0x4000#16] }, rfl, rfl,
      validTable_valid _, by decide⟩

theorem witness_AssemblerEmitsOnlyLegalWordsForMnemonics :
    (lineParts ['F', 'I', 'N']).1 ≠ wordDirective ∧ assembleLine ['F', 'I', 'N'] = .ok [0x4000#16] := by
  decide

theorem witness_AssemblerRefusals :
    (lineParts ['F', 'O', 'O', ' ', '1'] = (['F', 'O', 'O'], [' ', '1']) ∧
      ['F', 'O', 'O'] ≠ wordDirective) ∧
    (lineParts ['f', 'i', 'n', ' ', '3'] = (['f', 'i', 'n'], [' ', '3']) ∧
      ['f', 'i', 'n'].map upperChar = ['F', 'I', 'N'] ∧ [' ', '3'].all isBlank = false) ∧
    (lineParts ['T', 'R', 'D', ' ', ';', '9'] = (['T', 'R', 'D'], [' ']) ∧
      [' '].all isBlank = true) ∧
    (lineParts ['G', 'E', 'N', ' ', '2', '5', '6'] = (['G', 'E', 'N'], [' ', '2', '5', '6']) ∧
      operandGroups [' ', '2', '5', '6'] = [[['2', '5', '6']]] ∧
      readNumber ['2', '5', '6'] = some 256) ∧
    (2 ≤ (operandGroups [' ', '1', ' ', '2']).flatten.length ∧
      2 ≤ (operandGroups [' ', '1', ',', '2']).flatten.length) ∧
    (assembleLine ['I', 'N', 'I', 'T'] = .ok [0x1000#16] ∧
      assembleLine ['T', 'R', 'D'] = .error .missingOperand) := by
  decide

/-- Of two faulty lines the first is named (log 15). -/
theorem test_assemble_names_the_first_faulty_line :
    assemble ['F', 'O', 'O', '\n', 'T', 'R', 'D'] = .error ⟨1, .unknownMnemonic⟩ := by decide

end Sys2Proof.Tests
end

section
/-! PROOFS. Scope (00_scope.md): the step is the machine at its parameters, it reads three of them, it
runs the decoded command, and a run over words is the sequence of their effects. -/

namespace Sys2Proof.Machine

/-! ### The decoder and the words it answers ILLEGAL for -/

/-- R69: decoding an encoded command gives it back. -/
@[simp] theorem decode_encode (i : Instr) : decode (encode i) = .command i := by
  cases i with
  | init | fin => decide
  | updb b | updt b | gen b | trd b => revert b; decide

/-- R64, R68: an illegal word decodes to ILLEGAL of itself. -/
theorem decode_of_legal_eq_false {w : CmdWord} (h : legal w = false) : decode w = .illegal w := by
  obtain ⟨⟨hinit, hfin⟩, hbyte⟩ : (w ≠ 0x1000#16 ∧ w ≠ 0x4000#16) ∧
      (rsvField w = 0#4 → opTakesByte w = false) := by
    simpa [legal, rsvClear, rsvField] using h
  rw [decode, if_neg hinit, if_neg hfin]
  split
  · rfl
  · next hrsv =>
    obtain ⟨⟨⟨h2, h3⟩, h5⟩, h6⟩ : ((opField w ≠ 2#4 ∧ opField w ≠ 3#4) ∧ opField w ≠ 5#4) ∧
        opField w ≠ 6#4 := by
      simpa [opTakesByte, opField] using hbyte (not_not.mp hrsv)
    rw [if_neg h2, if_neg h3, if_neg h5, if_neg h6]

/-- A word of the opcode table's numbering is the command its bits decode to. -/
theorem decodeTableWord_eq_some_iff {nbits w : Nat} {i : Instr} :
    decodeTableWord nbits w = some i ↔ decode (tableWord nbits w) = .command i := by
  unfold decodeTableWord
  cases decode (tableWord nbits w) <;> simp [Decoded.command?]

/-! ### What a word does -/

theorem runWord_of_command {w : CmdWord} {i : Instr} (h : decode w = .command i) (s : State) :
    runWord w s = exec i s := by
  simp only [runWord, h]

theorem wordEffectOf_of_command {w : CmdWord} {i : Instr} (h : decode w = .command i) (cfg : Config)
    (s : State) : wordEffectOf cfg w s = effectOf cfg i s := by
  simp only [wordEffectOf, h]

/-- R131: an illegal word sets `STATUS.ERR` and completes. -/
theorem wordEffectOf_of_legal_eq_false {w : CmdWord} (h : legal w = false) (cfg : Config) (s : State) :
    wordEffectOf cfg w s = { s with err := true, cix := s.cix + 1, inFlight := none } := by
  simp only [wordEffectOf, decode_of_legal_eq_false h]
  rfl

/-- No command reads the command port, and each leaves nothing in flight. -/
theorem effectOf_port (cfg : Config) (i : Instr) (s : State) (f : Option CmdWord)
    (ws : List CmdWord) :
    effectOf cfg i { s with inFlight := f, commands := ws } =
      { effectOf cfg i s with commands := ws } := by
  cases i <;> rfl

/-- No word reads the command port, and each leaves nothing in flight. -/
theorem wordEffectOf_port (cfg : Config) (w : CmdWord) (s : State) (f : Option CmdWord)
    (ws : List CmdWord) :
    wordEffectOf cfg w { s with inFlight := f, commands := ws } =
      { wordEffectOf cfg w s with commands := ws } := by
  unfold wordEffectOf
  cases decode w with
  | command i => exact effectOf_port cfg i s f ws
  | illegal v => rfl

/-! ### What a step does, one equation per case of the tick -/

theorem State.accept_of_offered {s : State} {w : CmdWord} {ws : List CmdWord}
    (hf : s.inFlight = none) (hc : s.commands = w :: ws) :
    s.accept = { s with inFlight := some w, commands := ws } := by
  simp only [State.accept, hf, hc]

theorem State.accept_of_inFlight {s : State} {w : CmdWord} (hf : s.inFlight = some w) :
    s.accept = s := by
  simp only [State.accept, hf]

theorem stepOf_of_reset {s : State} (ht : s.tick = .reset) (cfg : Config) :
    stepOf cfg s = s.dropTick.resetBlock cfg := by
  simp only [stepOf, ht]

theorem stepOf_of_accept {s : State} (ht : s.tick = .accept) (cfg : Config) :
    stepOf cfg s = s.accept.dropTick.releaseReset := by
  simp only [stepOf, ht, State.accept_releaseReset_dropTick]

theorem stepOf_of_run {s : State} (ht : s.tick = .run) (cfg : Config) :
    stepOf cfg s = completionOf cfg s.accept.dropTick.releaseReset := by
  simp only [stepOf, ht, State.accept_releaseReset_dropTick]

theorem completionOf_of_inFlight {s : State} {w : CmdWord} (hf : s.inFlight = some w)
    (cfg : Config) : completionOf cfg s = wordEffectOf cfg w s := by
  simp only [completionOf, hf]

/-- Completing the command in flight is the parametric machine's completion at `Config.fixed`. -/
theorem runInFlight_eq_completionOf (s : State) :
    runInFlight s = .next (completionOf Config.fixed s) := by
  unfold runInFlight completionOf
  cases s.inFlight with
  | none => rfl
  | some w => exact runWord_eq_wordEffectOf w s

/-- A step is the parametric machine's step at `Config.fixed`. -/
theorem step_eq_stepOf (s : State) : step s = .next (stepOf Config.fixed s) := by
  unfold step stepTick stepOf
  cases s.tick with
  | run => exact runInFlight_eq_completionOf _
  | accept | reset => rfl

/-- A step that completes a word is that word's run, once the word is accepted, the tick used and
reset released. -/
theorem step_of_run {s : State} {w : CmdWord} (ht : s.tick = .run) (hw : s.accept.inFlight = some w) :
    step s = runWord w s.accept.dropTick.releaseReset := by
  have hport : s.accept.dropTick.releaseReset.inFlight = some w := hw
  rw [step_eq_stepOf, stepOf_of_run ht, completionOf_of_inFlight hport, runWord_eq_wordEffectOf]

/-- The word offered with none in flight is the one a run step completes. -/
theorem step_of_offered {s : State} {w : CmdWord} {ws : List CmdWord} (ht : s.tick = .run)
    (hf : s.inFlight = none) (hc : s.commands = w :: ws) :
    step s = runWord w
      { s with ticks := s.ticks.tail, rst := false, inFlight := some w, commands := ws } := by
  have ha := State.accept_of_offered hf hc
  rw [step_of_run ht (by rw [ha]), ha]
  rfl

/-- The word in flight is the one a run step completes. -/
theorem step_of_inFlight {s : State} {w : CmdWord} (ht : s.tick = .run) (hf : s.inFlight = some w) :
    step s = runWord w { s with ticks := s.ticks.tail, rst := false } := by
  have ha := State.accept_of_inFlight hf
  rw [step_of_run ht (ha.symm ▸ hf), ha]
  rfl

/-! ### What a step reads of its parameters -/

section Parameters

variable {c d : Config} (hpoly : c.poly = d.poly) (hinit : c.init = d.init)
  (htable : c.tableReset = d.tableReset)

theorem State.resetBlock_congr (hinit : c.init = d.init) (s : State) :
    s.resetBlock c = s.resetBlock d := by
  simp only [State.resetBlock, hinit]

include htable

theorem Config.tableResetAt_congr (i : Byte) : c.tableResetAt i = d.tableResetAt i := by
  simp only [Config.tableResetAt, htable]

theorem Memory.read_congr (m : Memory) (i : Byte) : m.read c i = m.read d i := by
  induction m with
  | nil => exact Config.tableResetAt_congr htable i
  | cons p m ih => simp only [Memory.read, ih]

theorem Memory.write_congr (m : Memory) (i v : Byte) : m.write c i v = m.write d i v := by
  simp only [Memory.write, Config.tableResetAt_congr htable]

theorem Memory.fill_congr (f : Byte → Byte) (m : Memory) : m.fill c f = m.fill d f := by
  have hwrite : (fun (m : Memory) i => m.write c i (f i)) = fun m i => m.write d i (f i) :=
    funext₂ fun m i => Memory.write_congr htable m i (f i)
  unfold Memory.fill
  rw [hwrite]

include hpoly hinit

/-- A command reads `POLY`, `INIT` and `TABLE_RESET` and no other parameter. -/
theorem effectOf_congr (i : Instr) (s : State) : effectOf c i s = effectOf d i s := by
  cases i with
  | init => simp only [effectOf, initEffect, hinit]
  | updb b => simp only [effectOf, updbEffect, hpoly]
  | updt b => simp only [effectOf, updtEffect, Memory.read_congr htable]
  | fin => rfl
  | gen g => simp only [effectOf, genEffect, hpoly, Memory.fill_congr htable]
  | trd j => simp only [effectOf, trdEffect, Memory.read_congr htable]

theorem wordEffectOf_congr (w : CmdWord) (s : State) : wordEffectOf c w s = wordEffectOf d w s := by
  unfold wordEffectOf
  cases decode w with
  | command i => exact effectOf_congr hpoly hinit htable i s
  | illegal v => rfl

theorem completionOf_congr (s : State) : completionOf c s = completionOf d s := by
  unfold completionOf
  cases s.inFlight with
  | none => rfl
  | some w => exact wordEffectOf_congr hpoly hinit htable w s

theorem stepOf_congr (s : State) : stepOf c s = stepOf d s := by
  cases ht : s.tick with
  | run =>
    rw [stepOf_of_run ht, stepOf_of_run ht]
    exact completionOf_congr hpoly hinit htable _
  | accept => rw [stepOf_of_accept ht, stepOf_of_accept ht]
  | reset =>
    rw [stepOf_of_reset ht, stepOf_of_reset ht]
    exact State.resetBlock_congr hinit _

end Parameters

/-! ### Runs over a sequence of offered words -/

/-- From a quiescent state with no tick listed a step has the effect of the offered word, and its next
state is quiescent with no tick listed. -/
theorem step_of_quiescent {s : State} {w : CmdWord} {ws : List CmdWord} (ht : s.ticks = [])
    (hf : s.inFlight = none) (hr : s.rst = false) (hc : s.commands = w :: ws) :
    step s = .next { wordEffectOf Config.fixed w s with commands := ws } := by
  have hs : ({ s with ticks := s.ticks.tail, rst := false, inFlight := some w, commands := ws } :
      State) = { s with inFlight := some w, commands := ws } := by
    simp only [ht, hr, List.tail_nil]
  rw [step_of_offered (by simp [State.tick, ht]) hf hc, hs, runWord_eq_wordEffectOf,
    wordEffectOf_port]

/-- R50: as many steps as words offered run the words in order. -/
theorem runSteps_of_quiescent (vs ws : List CmdWord) {s : State} (ht : s.ticks = [])
    (hf : s.inFlight = none) (hr : s.rst = false) (hc : s.commands = vs ++ ws) :
    runSteps vs.length s = runWords vs { s with commands := ws } := by
  induction vs generalizing s with
  | nil =>
    rw [List.nil_append] at hc
    subst hc
    rfl
  | cons w vs ih =>
    obtain ⟨-, hf', hr', -, ht', -⟩ := wordEffectOf_frame Config.fixed w s
    calc runSteps (w :: vs).length s
        = runSteps vs.length { wordEffectOf Config.fixed w s with commands := vs ++ ws } :=
          runSteps_succ (step_of_quiescent ht hf hr hc) vs.length
      _ = runWords vs { wordEffectOf Config.fixed w s with commands := ws } :=
          ih (ht'.trans ht) hf' (hr'.trans hr) rfl
      _ = runWords (w :: vs) { s with commands := ws } := by
          rw [runWords_cons, ← wordEffectOf_port Config.fixed w s s.inFlight ws]

/-- On the words of commands a sequence of words is the sequence of the commands. -/
theorem runWords_map_encode (is : List Instr) (s : State) :
    runWords (is.map encode) s = execAll is s := by
  induction is generalizing s with
  | nil => rfl
  | cons i is ih =>
    rw [List.map_cons, runWords_cons, wordEffectOf_of_command (decode_encode i), execAll_cons, ih]

/-! ### The obligations -/

/-- Settles O7, by the tick: only a run step executes anything, and a word's run is its effect. -/
theorem stepIsTheMachineAtItsParameters : Obligations.StepIsTheMachineAtItsParameters :=
  step_eq_stepOf

/-- Settles O8: every operation a step is built from reads `POLY`, `INIT` and `TABLE_RESET` at most. -/
theorem stepReadsOnlyPolyInitAndTableReset : Obligations.StepReadsOnlyPolyInitAndTableReset :=
  fun _ _ s hpoly hinit htable => stepOf_congr hpoly hinit htable s

/-- Settles O35, by induction on the words: the command port is not read by any effect, so a step on
the offered word is that word's effect, with the words behind it still offered. -/
theorem commandsTakeEffectInOrder : Obligations.CommandsTakeEffectInOrder := by
  refine ⟨fun vs ws s => runSteps_of_quiescent vs ws, runWords_map_encode, ?_⟩
  intro us vs w s t hw hus
  rw [runWords_append hus, runWords_cons, wordEffectOf_of_legal_eq_false hw]

/-- Settles O6: a run step runs the word accepted, and the word of a command runs as the command. -/
theorem stepRunsTheDecodedCommand : Obligations.StepRunsTheDecodedCommand := by
  refine ⟨?_, ?_, ?_⟩
  · intro s w ws i ht hf hc hi
    rw [step_of_offered ht hf hc, runWord_of_command hi]
  · intro s w i ht hf hi
    rw [step_of_inFlight ht hf, runWord_of_command hi]
  · intro s nbits w i hi
    have hstep := step_of_offered (s := s.withFetchWord nbits w) rfl rfl rfl
    rw [hstep, runWord_of_command (decodeTableWord_eq_some_iff.mp hi)]
    rfl

end Sys2Proof.Machine
end

section
/-! PROOFS. State (10_state.md): what each register, the table store, `cix` and the command port are
after a step, the invariant, and the reset values. -/

namespace Sys2Proof.Machine

/-! ### A step, one case per word to run -/

/-- The word a step completes: only a run step completes one, the word that acceptance leaves in
flight. -/
theorem State.wordToRun_eq_some_iff {s : State} {w : CmdWord} :
    s.wordToRun = some w ↔ s.tick = .run ∧ s.accept.inFlight = some w := by
  unfold State.wordToRun
  cases s.tick <;> simp

theorem State.wordToRun_eq_none_of_accept {s : State} (ht : s.tick = .accept) :
    s.wordToRun = none := by
  simp only [State.wordToRun, ht]

theorem step_of_reset {s : State} (ht : s.tick = .reset) :
    step s = .next (s.dropTick.resetBlock Config.fixed) := by
  rw [step_eq_stepOf, stepOf_of_reset ht]

/-- A step that completes a word is that word's effect, once the word is accepted, the tick used and
reset released. -/
theorem step_of_wordToRun {s : State} {w : CmdWord} (hw : s.wordToRun = some w) :
    step s = .next (wordEffectOf Config.fixed w s.accept.dropTick.releaseReset) := by
  obtain ⟨ht, hf⟩ := State.wordToRun_eq_some_iff.mp hw
  rw [step_of_run ht hf, runWord_eq_wordEffectOf]

theorem completionOf_of_none {s : State} (hf : s.inFlight = none) (cfg : Config) :
    completionOf cfg s = s := by
  simp only [completionOf, hf]

/-- A step that neither resets nor completes a word only accepts, uses its tick and releases reset. -/
theorem step_of_wordToRun_eq_none {s : State} (ht : s.tick ≠ .reset) (hw : s.wordToRun = none) :
    step s = .next s.accept.dropTick.releaseReset := by
  rw [step_eq_stepOf]
  cases htick : s.tick with
  | reset => exact absurd htick ht
  | accept => rw [stepOf_of_accept htick]
  | run =>
    have hport : s.accept.dropTick.releaseReset.inFlight = none := by
      simpa [State.wordToRun, htick] using hw
    rw [stepOf_of_run htick, completionOf_of_none hport]

/-- Everything a step can do: reset, complete a word, or neither. -/
theorem step_cases {s t : State} (h : step s = .next t) :
    (s.tick = .reset ∧ t = s.dropTick.resetBlock Config.fixed) ∨
    (s.tick ≠ .reset ∧ s.wordToRun = none ∧ t = s.accept.dropTick.releaseReset) ∨
    (∃ w, s.wordToRun = some w ∧
      t = wordEffectOf Config.fixed w s.accept.dropTick.releaseReset) := by
  by_cases ht : s.tick = .reset
  · rw [step_of_reset ht] at h
    cases h
    exact .inl ⟨ht, rfl⟩
  · cases hw : s.wordToRun with
    | none =>
      rw [step_of_wordToRun_eq_none ht hw] at h
      cases h
      exact .inr (.inl ⟨ht, rfl, rfl⟩)
    | some w =>
      rw [step_of_wordToRun hw] at h
      cases h
      exact .inr (.inr ⟨w, rfl, rfl⟩)

/-! ### Which command writes what -/

/-- R21: `ACC` is as before, or the command is INIT, UPDB or UPDT. -/
theorem effectOf_acc_cases (cfg : Config) (i : Instr) (s : State) :
    (effectOf cfg i s).acc = s.acc ∨ i = .init ∨ (∃ b, i = .updb b) ∨ ∃ b, i = .updt b := by
  cases i with
  | init => exact .inr (.inl rfl)
  | updb b => exact .inr (.inr (.inl ⟨b, rfl⟩))
  | updt b => exact .inr (.inr (.inr ⟨b, rfl⟩))
  | fin | gen g | trd j => exact .inl rfl

/-- R23: `RESULT` is as before, or the command is FIN or TRD. -/
theorem effectOf_result_cases (cfg : Config) (i : Instr) (s : State) :
    (effectOf cfg i s).result = s.result ∨ i = .fin ∨ ∃ j, i = .trd j := by
  cases i with
  | fin => exact .inr (.inl rfl)
  | trd j => exact .inr (.inr ⟨j, rfl⟩)
  | init | updb b | updt b | gen g => exact .inl rfl

/-- R43: the table store is as before, or the command is GEN. -/
theorem effectOf_table_cases (cfg : Config) (i : Instr) (s : State) :
    (effectOf cfg i s).table = s.table ∨ ∃ g, i = .gen g := by
  cases i with
  | gen g => exact .inr ⟨g, rfl⟩
  | init | updb b | updt b | fin | trd j => exact .inl rfl

theorem wordEffectOf_acc_cases (cfg : Config) (w : CmdWord) (s : State) :
    (wordEffectOf cfg w s).acc = s.acc ∨ decode w = .command .init ∨
      (∃ b, decode w = .command (.updb b)) ∨ ∃ b, decode w = .command (.updt b) := by
  rcases wordEffectOf_cases cfg w s with ⟨i, hi, he⟩ | ⟨v, -, he⟩
  · simpa [hi, he] using effectOf_acc_cases cfg i s
  · exact .inl (by rw [he, State.raiseIllegalCommand_acc])

theorem wordEffectOf_result_cases (cfg : Config) (w : CmdWord) (s : State) :
    (wordEffectOf cfg w s).result = s.result ∨ decode w = .command .fin ∨
      ∃ j, decode w = .command (.trd j) := by
  rcases wordEffectOf_cases cfg w s with ⟨i, hi, he⟩ | ⟨v, -, he⟩
  · simpa [hi, he] using effectOf_result_cases cfg i s
  · exact .inl (by rw [he, State.raiseIllegalCommand_result])

/-! ### The invariant -/

theorem extractLsb'_zext64 (v : Byte) : (zext64 v).extractLsb' 8 56 = 0 := by
  unfold zext64
  ext k hk
  simp

/-- GEN keeps the canonical form of the table store; no other command writes it. -/
theorem effectOf_table_wf {cfg : Config} {s : State} (i : Instr) (h : s.table.wf cfg = true) :
    (effectOf cfg i s).table.wf cfg = true := by
  rcases effectOf_table_cases cfg i s with htable | ⟨g, rfl⟩
  · rwa [htable]
  · exact Memory.wf_fill _ h

/-- FIN and TRD write a zero-extended byte; no other command writes `RESULT`. -/
theorem effectOf_result_high {s : State} (cfg : Config) (i : Instr)
    (h : s.result.extractLsb' 8 56 = 0) : (effectOf cfg i s).result.extractLsb' 8 56 = 0 := by
  rcases effectOf_result_cases cfg i s with hresult | rfl | ⟨j, rfl⟩
  · rwa [hresult]
  · exact extractLsb'_zext64 s.acc
  · exact extractLsb'_zext64 (s.table.read cfg j)

/-- While reset is not asserted, the completion of a word keeps the invariant. -/
theorem State.Inv.after_word {cfg : Config} {s : State} (hs : s.Inv cfg) (hr : s.rst = false)
    (w : CmdWord) : (wordEffectOf cfg w s).Inv cfg := by
  obtain ⟨-, -, hrst, -⟩ := wordEffectOf_frame cfg w s
  have hfree : (wordEffectOf cfg w s).rst ≠ true := by simp [hrst, hr]
  rcases wordEffectOf_cases cfg w s with ⟨i, -, he⟩ | ⟨v, -, he⟩
  · exact ⟨he ▸ effectOf_table_wf i hs.table_wf, he ▸ effectOf_result_high cfg i hs.result_high,
      fun h => absurd h hfree⟩
  · exact ⟨he ▸ hs.table_wf, he ▸ hs.result_high, fun h => absurd h hfree⟩

/-- Acceptance, with the tick used and reset released, writes nothing the invariant speaks of. -/
theorem State.Inv.after_accept {cfg : Config} {s : State} (hs : s.Inv cfg) :
    s.accept.dropTick.releaseReset.Inv cfg :=
  ⟨by simpa using hs.table_wf, by simpa using hs.result_high, nofun⟩

theorem State.atReset_resetBlock (cfg : Config) (s : State) : (s.resetBlock cfg).AtReset cfg :=
  ⟨rfl, rfl, rfl, fun _ => rfl, rfl, rfl⟩

theorem State.inv_resetBlock (cfg : Config) (s : State) : (s.resetBlock cfg).Inv cfg :=
  ⟨rfl, BitVec.extractLsb'_zero .., fun _ => s.atReset_resetBlock cfg⟩

theorem State.atReset_resetOf (cfg : Config) : (State.resetOf cfg).AtReset cfg :=
  ⟨rfl, rfl, rfl, fun _ => rfl, rfl, rfl⟩

theorem State.inv_resetOf (cfg : Config) : (State.resetOf cfg).Inv cfg :=
  ⟨rfl, BitVec.extractLsb'_zero .., fun _ => State.atReset_resetOf cfg⟩

/-! ### `STATUS` -/

/-- R64, R68: only an illegal word decodes to ILLEGAL, for its `RSV` or else for its `OP`. -/
theorem legal_eq_false_of_decode {w v : CmdWord} (h : decode w = .illegal v) : legal w = false := by
  unfold decode at h
  split_ifs at h with hinit hfin hrsv h2 h3 h5 h6
  · have hclear : rsvClear w = false := by simpa [rsvClear, rsvField] using hrsv
    simp [legal, hinit, hfin, hclear]
  · have hop : opTakesByte w = false := by
      simp only [opField] at h2 h3 h5 h6
      simp [opTakesByte, h2, h3, h5, h6]
    simp [legal, hinit, hfin, hop]

/-- R26, R131: a word sets `ERR` exactly when it is illegal, and never clears it. -/
theorem wordEffectOf_err (cfg : Config) (w : CmdWord) (s : State) :
    (wordEffectOf cfg w s).err = (s.err || !legal w) := by
  cases hw : legal w with
  | false => simp [wordEffectOf_of_legal_eq_false hw]
  | true =>
    rcases wordEffectOf_cases cfg w s with ⟨i, -, he⟩ | ⟨v, hv, -⟩
    · simp [he, (effectOf_frame cfg i s).1]
    · simp [legal_eq_false_of_decode hv] at hw

/-- R25: bit 0 of `STATUS` is `ERR`, every other bit is 0. -/
@[simp] theorem State.getLsbD_status (s : State) (k : Nat) :
    s.status.getLsbD k = (decide (k = 0) && s.err) := by
  simp only [State.status, BitVec.getLsbD_setWidth, BitVec.getLsbD_ofBool]
  cases k <;> simp

/-- Everything a read of `STATUS` can return: a free bit 0 while reset is asserted; the register when
quiescent; each bit old or new while a command is in flight (R51, R156). -/
theorem readStatusOf_cases (cfg : Config) (s : State) :
    (s.rst = true ∧ readStatusOf cfg s = (s.freeRead.setWidth 8 &&& 0x01#8, s.countDraw)) ∨
    (s.rst = false ∧ s.inFlight = none ∧ readStatusOf cfg s = (s.status, s)) ∨
    (s.rst = false ∧ s.inFlight ≠ none ∧ readStatusOf cfg s =
      (mixBits (s.freeRead.setWidth 8) s.status (completionOf cfg s).status, s.countDraw)) := by
  unfold readStatusOf
  cases hr : s.rst with
  | true => exact .inl ⟨rfl, rfl⟩
  | false =>
    cases hf : s.inFlight with
    | none => exact .inr (.inl ⟨rfl, rfl, rfl⟩)
    | some w => exact .inr (.inr ⟨rfl, nofun, rfl⟩)

/-- R25: `STATUS[7:1]` reads 0, in flight and in reset too. -/
theorem getLsbD_readStatusOf (cfg : Config) (s : State) {k : Nat} (hk : 1 ≤ k) :
    (readStatusOf cfg s).1.getLsbD k = false := by
  have hne : k ≠ 0 := Nat.ne_of_gt hk
  rcases readStatusOf_cases cfg s with ⟨-, h⟩ | ⟨-, -, h⟩ | ⟨-, -, h⟩
  · have hone : (0x01#8).getLsbD k = false := by
      rw [BitVec.getLsbD_one]
      simp [hne]
    rw [h, BitVec.getLsbD_and, hone, Bool.and_false]
  · simp [h, hne]
  · simp [h, hne]

/-! ### `cix` -/

theorem effectOf_cix_update (cfg : Config) (i : Instr) (s : State) (n : Nat) :
    effectOf cfg i { s with cix := n } = { effectOf cfg i s with cix := n + 1 } := by
  cases i <;> rfl

theorem wordEffectOf_cix_update (cfg : Config) (w : CmdWord) (s : State) (n : Nat) :
    wordEffectOf cfg w { s with cix := n } = { wordEffectOf cfg w s with cix := n + 1 } := by
  unfold wordEffectOf
  cases decode w with
  | command i => exact effectOf_cix_update cfg i s n
  | illegal v => rfl

theorem completionOf_cix_update (cfg : Config) (s : State) (n : Nat) :
    ({ completionOf cfg { s with cix := n } with cix := 0 } : State) =
      { completionOf cfg s with cix := 0 } := by
  rcases Option.eq_none_or_eq_some s.inFlight with hf | ⟨w, hf⟩
  · rw [completionOf_of_none hf, completionOf_of_none (s := { s with cix := n }) hf]
  · rw [completionOf_of_inFlight hf, completionOf_of_inFlight (s := { s with cix := n }) hf,
      wordEffectOf_cix_update]

theorem State.accept_cix_update (s : State) (n : Nat) :
    ({ s with cix := n } : State).accept = { s.accept with cix := n } := by
  obtain ⟨_, _, _, _, _, f, _, ws, _, _⟩ := s
  cases f <;> cases ws <;> rfl

/-- R28: whatever `cix` held before a step, the rest of the next state is the same. -/
theorem stepOf_cix_update (cfg : Config) (s : State) (n : Nat) :
    ({ stepOf cfg { s with cix := n } with cix := 0 } : State) = { stepOf cfg s with cix := 0 } := by
  cases ht : s.tick with
  | reset =>
    rw [stepOf_of_reset ht, stepOf_of_reset (s := { s with cix := n }) ht]
    rfl
  | accept =>
    rw [stepOf_of_accept ht, stepOf_of_accept (s := { s with cix := n }) ht, State.accept_cix_update]
    rfl
  | run =>
    rw [stepOf_of_run ht, stepOf_of_run (s := { s with cix := n }) ht, State.accept_cix_update]
    exact completionOf_cix_update cfg s.accept.dropTick.releaseReset n

/-! ### The command port -/

/-- R34: ready is quiescent. -/
theorem State.cmdReady_iff (s : State) : s.cmdReady = true ↔ s.rst = false ∧ s.inFlight = none := by
  simp [State.cmdReady, State.quiescent]

theorem State.cmdReady_eq_false_of_rst {s : State} (h : s.rst = true) : s.cmdReady = false := by
  simp [State.cmdReady, State.quiescent, h]

theorem State.releaseReset_cmdReady_iff (s : State) :
    s.releaseReset.cmdReady = true ↔ s.inFlight = none := by
  simp [State.cmdReady_iff]

theorem State.accept_of_inFlight_ne_none {s : State} (hf : s.inFlight ≠ none) : s.accept = s := by
  obtain ⟨w, hw⟩ := Option.ne_none_iff_exists'.mp hf
  exact State.accept_of_inFlight hw

/-- R33: with none in flight, acceptance puts the offered word, if any, in flight and takes it off the
port. -/
theorem State.accept_of_inFlight_eq_none {s : State} (hf : s.inFlight = none) :
    s.accept = { s with inFlight := s.commands.head?, commands := s.commands.tail } := by
  obtain ⟨_, _, _, _, _, _, _, ws, _, _⟩ := s
  cases hf
  cases ws <;> rfl

/-- A step that does not reset takes what acceptance takes, and leaves reset released. -/
theorem step_port_of_not_reset {s t : State} (h : step s = .next t) (ht : s.tick ≠ .reset) :
    t.commands = s.accept.commands ∧ t.rst = false := by
  rcases step_cases h with ⟨hreset, -⟩ | ⟨-, -, rfl⟩ | ⟨w, -, rfl⟩
  · exact absurd hreset ht
  · exact ⟨rfl, rfl⟩
  · obtain ⟨-, -, hrst, hcommands, -⟩ :=
      wordEffectOf_frame Config.fixed w s.accept.dropTick.releaseReset
    exact ⟨hcommands, hrst⟩

theorem step_of_accept {s : State} (ht : s.tick = .accept) :
    step s = .next s.accept.dropTick.releaseReset :=
  step_of_wordToRun_eq_none (by simp [ht]) (State.wordToRun_eq_none_of_accept ht)

/-! ### A command that stays in flight -/

/-- Acceptance reads neither the reset line nor the ticks. -/
theorem State.accept_rst_ticks_update (s : State) (r : Bool) (ts : List Tick) :
    ({ s with rst := r, ticks := ts } : State).accept = { s.accept with rst := r, ticks := ts } := by
  obtain ⟨_, _, _, _, _, f, _, ws, _, _⟩ := s
  cases f <;> cases ws <;> rfl

/-- A step on an accept tick accepts, and the ticks behind it are to come. -/
theorem step_accept_cons (s : State) (ts : List Tick) :
    step { s with ticks := .accept :: ts } = .next { s.accept with rst := false, ticks := ts } := by
  rw [step_of_accept rfl, State.accept_rst_ticks_update s s.rst (.accept :: ts)]
  rfl

/-- A run step does the same after an acceptance as from where the acceptance started. -/
theorem step_run_cons_accept (s : State) (ts : List Tick) :
    step { s.accept with rst := false, ticks := .run :: ts } = step { s with ticks := .run :: ts } := by
  rw [step_eq_stepOf, step_eq_stepOf, stepOf_of_run rfl, stepOf_of_run rfl,
    State.accept_rst_ticks_update s.accept false, State.accept_accept,
    State.accept_rst_ticks_update s s.rst (.run :: ts)]
  rfl

/-- R36, R46: accept steps before a run step change nothing of what the run step leaves. -/
theorem runSteps_accept_then_run (s : State) (n : Nat) (ts : List Tick) :
    runSteps (n + 1) { s with ticks := List.replicate n .accept ++ .run :: ts } =
      step { s with ticks := .run :: ts } := by
  induction n generalizing s with
  | zero => exact runSteps_one _
  | succ n ih =>
    calc runSteps (n + 1 + 1) { s with ticks := List.replicate (n + 1) .accept ++ .run :: ts }
        = runSteps (n + 1)
            { s.accept with rst := false, ticks := List.replicate n .accept ++ .run :: ts } :=
          runSteps_succ (step_accept_cons s _) (n + 1)
      _ = step { s.accept with rst := false, ticks := .run :: ts } :=
          ih { s.accept with rst := false }
      _ = step { s with ticks := .run :: ts } := step_run_cons_accept s ts

/-! ### The obligations -/

/-- Settles O26, by what a step can do: a reset sets every piece of state to its reset value, and in
every other step reset ends released, the table store is at most filled by GEN, and `RESULT` is at most
written with a zero-extended byte. -/
theorem everyStepKeepsTheInvariant : Obligations.EveryStepKeepsTheInvariant := by
  intro s t hs h
  rcases step_cases h with ⟨-, rfl⟩ | ⟨-, -, rfl⟩ | ⟨w, -, rfl⟩
  · exact State.inv_resetBlock _ _
  · exact hs.after_accept
  · exact hs.after_accept.after_word rfl w

/-- Settles O9: a step counts exactly the word it completes, and no operation reads the count. -/
theorem cixCountsCompletedCommandsAndIsNeverRead :
    Obligations.CixCountsCompletedCommandsAndIsNeverRead := by
  refine ⟨fun s t h => ⟨fun ht => ?_, fun ht hw => ?_, fun ht hw => ?_⟩, fun s t u n ht hu => ?_⟩
  · rw [step_of_reset ht] at h
    cases h
    rfl
  · obtain ⟨w, hw⟩ := Option.ne_none_iff_exists'.mp hw
    rw [step_of_wordToRun hw] at h
    cases h
    simp [(wordEffectOf_frame Config.fixed w s.accept.dropTick.releaseReset).1]
  · rw [step_of_wordToRun_eq_none ht hw] at h
    cases h
    simp
  · rw [step_eq_stepOf] at ht hu
    cases ht
    cases hu
    exact stepOf_cix_update Config.fixed s n

/-- Settles O17, register by register: what a command leaves alone, and which commands write it. -/
theorem commandFrames : Obligations.CommandFrames := by
  intro i s t h
  rw [exec_eq_effectOf] at h
  cases h
  obtain ⟨herr, hcix, hinFlight, hrst, hcommands, hticks, hdraws⟩ :=
    effectOf_frame Config.fixed i s
  refine ⟨⟨herr, by simp only [State.status, herr], hrst, hcommands, hticks, hdraws, hcix,
    hinFlight⟩, fun hinit hupdb hupdt => ?_, fun hfin htrd => ?_, fun hgen j => ?_⟩
  · rcases effectOf_acc_cases Config.fixed i s with hacc | hi | ⟨b, hi⟩ | ⟨b, hi⟩
    · exact hacc
    · exact absurd hi hinit
    · exact absurd hi (hupdb b)
    · exact absurd hi (hupdt b)
  · rcases effectOf_result_cases Config.fixed i s with hresult | hi | ⟨j, hi⟩
    · exact hresult
    · exact absurd hi hfin
    · exact absurd hi (htrd j)
  · rcases effectOf_table_cases Config.fixed i s with htable | ⟨g, hi⟩
    · simp only [State.tableAt, htable]
    · exact absurd hi (hgen g)

/-- Settles O20: a word sets `ERR` exactly when it is illegal, and acceptance leaves it. -/
theorem errIsSticky : Obligations.ErrIsSticky := by
  intro s t h
  rcases step_cases h with ⟨ht, rfl⟩ | ⟨-, hw, rfl⟩ | ⟨w, hw, rfl⟩
  · refine ⟨fun _ => nofun, fun _ _ => ht, fun w hw => ?_⟩
    exact absurd (State.wordToRun_eq_some_iff.mp hw).1 (by simp [ht])
  · simp +contextual [hw]
  · simp only [wordEffectOf_err, State.releaseReset_err, State.dropTick_err, State.accept_err, hw]
    refine ⟨fun hs ht => ⟨w, rfl, ?_⟩, fun hs ht => ?_, fun v hv hlegal => ?_⟩
    · simpa [hs] using ht
    · simp [hs] at ht
    · cases hv
      simp [hlegal]

/-- Settles O22: every bit of `STATUS` but bit 0 is 0 in the register, before and after a command, and
is masked out of a read in reset. -/
theorem statusReadsErrAndZeros : Obligations.StatusReadsErrAndZeros :=
  fun s => ⟨s.getLsbD_status 0, fun k hk => by simp [Nat.ne_of_gt hk],
    fun _ hk => getLsbD_readStatusOf Config.fixed s hk, rfl⟩

/-- Settles O23: a step that does not reset writes `ACC` only as the word it completes does. -/
theorem accIsWrittenOnlyByInitUpdbUpdtAndReset :
    Obligations.AccIsWrittenOnlyByInitUpdbUpdtAndReset := by
  intro s t h hne
  rcases step_cases h with ⟨ht, -⟩ | ⟨-, -, rfl⟩ | ⟨w, hw, rfl⟩
  · exact .inl ht
  · exact absurd s.accept_acc hne
  · rcases wordEffectOf_acc_cases Config.fixed w s.accept.dropTick.releaseReset with hacc | hcmd
    · exact absurd (hacc.trans s.accept_acc) hne
    · exact .inr ⟨w, hw, hcmd⟩

/-- Settles O24: FIN and TRD write what they read of the state before the step, and a step that does not
reset writes `RESULT` only as the word it completes does. -/
theorem resultIsWrittenOnlyByFinTrdAndReset : Obligations.ResultIsWrittenOnlyByFinTrdAndReset := by
  intro s t h
  refine ⟨fun ht => ?_, fun w hw hfin => ?_, fun w i hw htrd => ?_, fun hne => ?_⟩
  · rw [step_of_reset ht] at h
    cases h
    rfl
  · rw [step_of_wordToRun hw, wordEffectOf_of_command hfin] at h
    cases h
    simp [effectOf, finEffect, zext64]
  · rw [step_of_wordToRun hw, wordEffectOf_of_command htrd] at h
    cases h
    simp [effectOf, trdEffect, zext64, State.tableAt]
  · rcases step_cases h with ⟨ht, -⟩ | ⟨-, -, rfl⟩ | ⟨w, hw, rfl⟩
    · exact .inl ht
    · exact absurd s.accept_result hne
    · rcases wordEffectOf_result_cases Config.fixed w s.accept.dropTick.releaseReset with
        hresult | hcmd
      · exact absurd (hresult.trans s.accept_result) hne
      · exact .inr ⟨w, hw, hcmd⟩

/-- Settles O33: a reset step leaves the port alone, every other step takes what acceptance takes, and
acceptance takes the offered word exactly when nothing is in flight. -/
theorem aWordIsAcceptedExactlyOnce : Obligations.AWordIsAcceptedExactlyOnce := by
  intro s t h
  have hreset (ht : s.tick = .reset) : t.commands = s.commands ∧ t.cmdReady = false := by
    rw [step_of_reset ht] at h
    cases h
    exact ⟨rfl, State.cmdReady_eq_false_of_rst rfl⟩
  have hbusy (hf : s.inFlight ≠ none) : t.commands = s.commands := by
    by_cases ht : s.tick = .reset
    · exact (hreset ht).1
    · rw [(step_port_of_not_reset h ht).1, State.accept_of_inFlight_ne_none hf]
  have htaken (ht : s.tick ≠ .reset) (hf : s.inFlight = none) : t.commands = s.commands.tail := by
    rw [(step_port_of_not_reset h ht).1, State.accept_of_inFlight_eq_none hf]
  have hplaced (hf : s.inFlight = none) (ht : s.tick = .accept) :
      t.inFlight = s.commands.head? := by
    rw [step_of_accept ht, State.accept_of_inFlight_eq_none hf] at h
    cases h
    rfl
  refine ⟨hreset, hbusy, fun ht hr => htaken ht (s.cmdReady_iff.mp hr).2,
    fun ht hr => hplaced (s.cmdReady_iff.mp hr).2 ht, fun ht _ hf => ?_, fun hne => ?_⟩
  · exact ⟨s.releaseReset_cmdReady_iff.mpr hf, (step_port_of_not_reset h ht).2, htaken ht hf,
      hplaced hf⟩
  · exact ⟨fun ht => hne (hreset ht).1,
      s.releaseReset_cmdReady_iff.mpr (not_not.mp fun hf => hne (hbusy hf))⟩

/-- Settles O34, by induction on the number of accept steps: the first accepts, and what follows does
the same after an acceptance as before it. -/
theorem commandsAreIndivisible : Obligations.CommandsAreIndivisible := by
  refine ⟨runSteps_accept_then_run, fun s t ht h => ?_⟩
  rw [step_of_accept ht] at h
  cases h
  exact ⟨s.accept_acc, s.accept_result, s.accept_err, s.accept_table, s.accept_cix⟩

/-- Settles O27: nothing is listed in the table store, `RESULT` is 0, and reset is not asserted. -/
theorem resetMeetsTheInvariant : Obligations.ResetMeetsTheInvariant :=
  State.inv_resetOf Config.fixed

/-- Settles O28: the block's registers are at their reset values, and a state with reset asserted is not
ready. -/
theorem resetValues : Obligations.ResetValues := by
  obtain ⟨hacc, hresult, herr, htable, hcix, hinFlight⟩ := State.atReset_resetOf Config.fixed
  exact ⟨⟨hacc, hresult, herr, fun k hk => by simp [Nat.ne_of_gt hk], htable, hinFlight, hcix, rfl⟩,
    fun s => State.cmdReady_eq_false_of_rst⟩

/-- Settles O32: ready is quiescent. -/
theorem readyExactlyWhenQuiescent : Obligations.ReadyExactlyWhenQuiescent :=
  State.cmdReady_iff

end Sys2Proof.Machine
end

section
/-! PROOFS. Memory and ordering (20_memory.md): the table store and who writes it, a command in flight
at reset, and what a host reads. -/

namespace Sys2Proof.Machine

/-! ### The table store -/

section Store

variable {cfg : Config}

theorem Memory.read_write_self (m : Memory) (i v : Byte) : (m.write cfg i v).read cfg i = v := by
  rw [Memory.read_write, if_pos rfl]

theorem Memory.read_write_of_ne (m : Memory) {i j : Byte} (v : Byte) (h : j ≠ i) :
    (m.write cfg i v).read cfg j = m.read cfg j := by
  rw [Memory.read_write, if_neg h]

variable {m : Memory} (hm : m.wf cfg = true)
include hm

/-- R40: the last write to an entry wins. -/
theorem Memory.write_write_self (i u v : Byte) :
    (m.write cfg i u).write cfg i v = m.write cfg i v := by
  refine Memory.ext_of_wf (Memory.wf_write i v (Memory.wf_write i u hm)) (Memory.wf_write i v hm)
    fun k => ?_
  by_cases hk : k = i
  · rw [hk, Memory.read_write_self, Memory.read_write_self]
  · rw [Memory.read_write_of_ne _ _ hk, Memory.read_write_of_ne _ _ hk,
      Memory.read_write_of_ne _ _ hk]

/-- R40: writes to different entries commute. -/
theorem Memory.write_comm {i j : Byte} (hij : j ≠ i) (u v : Byte) :
    (m.write cfg i u).write cfg j v = (m.write cfg j v).write cfg i u := by
  refine Memory.ext_of_wf (Memory.wf_write j v (Memory.wf_write i u hm))
    (Memory.wf_write i u (Memory.wf_write j v hm)) fun k => ?_
  simp only [Memory.read_write]
  by_cases hk : k = j
  · simp [hk, hij]
  · simp [hk]

/-- R44: filling the store a second time leaves what the second filling alone leaves. -/
theorem Memory.fill_fill (f f' : Byte → Byte) : (m.fill cfg f).fill cfg f' = m.fill cfg f' :=
  Memory.ext_of_wf (Memory.wf_fill f' (Memory.wf_fill f hm)) (Memory.wf_fill f' hm) fun k => by
    rw [Memory.read_fill, Memory.read_fill]

end Store

/-- R43: a word leaves the table store as it is, or it decodes to GEN. -/
theorem wordEffectOf_table_cases (cfg : Config) (w : CmdWord) (s : State) :
    (wordEffectOf cfg w s).table = s.table ∨ ∃ g, decode w = .command (.gen g) := by
  rcases wordEffectOf_cases cfg w s with ⟨i, hi, he⟩ | ⟨v, -, he⟩
  · simpa [hi, he] using effectOf_table_cases cfg i s
  · exact .inl (by rw [he, State.raiseIllegalCommand_table])

theorem effectOf_table_of_ne_gen (cfg : Config) {i : Instr} (s : State) (h : ∀ g, i ≠ .gen g) :
    (effectOf cfg i s).table = s.table :=
  (effectOf_table_cases cfg i s).resolve_right fun ⟨g, hg⟩ => h g hg

theorem effectOf_gen_table (cfg : Config) (g : Byte) (s : State) :
    (effectOf cfg (.gen g) s).table = s.table.fill cfg fun i => step8 (g ^^^ i) cfg.poly := rfl

theorem effectOf_trd_result (cfg : Config) (i : Byte) (s : State) :
    (effectOf cfg (.trd i) s).result = zext64 (s.table.read cfg i) := rfl

theorem effectOf_fin_result (cfg : Config) (s : State) :
    (effectOf cfg .fin s).result = zext64 s.acc := rfl

/-! ### A command in flight at reset -/

/-- A step on a reset tick resets, and the ticks behind it are to come. -/
theorem step_reset_cons (s : State) (ts : List Tick) :
    step { s with ticks := .reset :: ts } =
      .next (({ s with ticks := ts } : State).resetBlock Config.fixed) :=
  step_of_reset rfl

/-- Of what acceptance changes, reset leaves only the words still to be issued. -/
theorem State.resetBlock_accept (cfg : Config) (s : State) (ts : List Tick) (ws : List CmdWord) :
    ({ ({ s.accept with rst := false, ticks := ts } : State).resetBlock cfg with
        commands := ws } : State) =
      { ({ s with ticks := ts } : State).resetBlock cfg with commands := ws } := by
  simp [State.resetBlock]

/-- R46, R136: accept steps before a reset step change nothing of what the reset step leaves but the
words still to be issued. -/
theorem runSteps_accept_then_reset (s : State) (n : Nat) (ts : List Tick) :
    ∃ ws, runSteps (n + 1) { s with ticks := List.replicate n .accept ++ .reset :: ts } =
      .next { ({ s with ticks := ts } : State).resetBlock Config.fixed with commands := ws } := by
  induction n generalizing s with
  | zero => exact ⟨s.commands, (runSteps_one _).trans (step_reset_cons s ts)⟩
  | succ n ih =>
    obtain ⟨ws, hws⟩ := ih { s.accept with rst := false }
    refine ⟨ws, ?_⟩
    calc runSteps (n + 1 + 1) { s with ticks := List.replicate (n + 1) .accept ++ .reset :: ts }
        = runSteps (n + 1)
            { s.accept with rst := false, ticks := List.replicate n .accept ++ .reset :: ts } :=
          runSteps_succ (step_accept_cons s _) (n + 1)
      _ = .next { ({ s with ticks := ts } : State).resetBlock Config.fixed with commands := ws } := by
          rw [hws, State.resetBlock_accept]

/-! ### Host reads -/

theorem readResultOf_of_cmdReady {s : State} (h : s.cmdReady = true) (cfg : Config) :
    readResultOf cfg s = (s.result, s) := by
  obtain ⟨hr, hf⟩ := s.cmdReady_iff.mp h
  simp [readResultOf, hr, hf]

theorem readStatusOf_of_cmdReady {s : State} (h : s.cmdReady = true) (cfg : Config) :
    readStatusOf cfg s = (s.status, s) := by
  obtain ⟨hr, hf⟩ := s.cmdReady_iff.mp h
  simp [readStatusOf, hr, hf]

/-- `RESULT[63:8]` is 0 when every bit from bit 8 up is. -/
theorem extractLsb'_high_eq_zero_iff {r : ResultWord} :
    r.extractLsb' 8 56 = 0 ↔ ∀ k, 8 ≤ k → r.getLsbD k = false := by
  constructor
  · intro h k hk
    by_cases hlt : k < 64
    · have hbit := congrArg (fun x => x.getLsbD (k - 8)) h
      have hpos : k - 8 < 56 := by omega
      simpa [hpos, Nat.add_sub_cancel' hk] using hbit
    · exact BitVec.getLsbD_of_ge _ _ (by omega)
  · intro h
    ext k hk
    simp [h (8 + k) (by omega)]

/-- Bits that are 0 in the old and in the new value are 0 in every mix of them. -/
theorem mixBits_high (mask : ResultWord) {old new : ResultWord}
    (hold : old.extractLsb' 8 56 = 0) (hnew : new.extractLsb' 8 56 = 0) :
    (mixBits mask old new).extractLsb' 8 56 = 0 := by
  rw [extractLsb'_high_eq_zero_iff] at hold hnew ⊢
  intro k hk
  rw [getLsbD_mixBits, hold k hk, hnew k hk, ite_self]

/-- While reset is not asserted, completing the command in flight, if any, keeps the invariant. -/
theorem State.Inv.after_completion {cfg : Config} {s : State} (hs : s.Inv cfg)
    (hr : s.rst = false) : (completionOf cfg s).Inv cfg := by
  rcases Option.eq_none_or_eq_some s.inFlight with hf | ⟨w, hf⟩
  · rwa [completionOf_of_none hf]
  · rw [completionOf_of_inFlight hf]
    exact hs.after_word hr w

/-- R24, R48: a read of `RESULT` returns 0 in bits 63:8, in flight and in reset too. -/
theorem readResultOf_high {cfg : Config} {s : State} (hs : s.Inv cfg) :
    (readResultOf cfg s).1.extractLsb' 8 56 = 0 := by
  rcases readResultOf_cases cfg s with ⟨-, h⟩ | ⟨-, -, h⟩ | ⟨hr, -, h⟩
  · rw [h]
    exact extractLsb'_zext64 _
  · rw [h]
    exact hs.result_high
  · rw [h]
    exact mixBits_high _ hs.result_high (hs.after_completion hr).result_high

/-! ### `RESULT` as bytes -/

/-- R48: bit j of byte k is bit 8k + j. -/
theorem getLsbD_resultByte (r : ResultWord) (k : Fin 8) {j : Nat} (hj : j < 8) :
    (resultByte r k).getLsbD j = r.getLsbD (8 * k.val + j) := by
  simp [resultByte, hj]

theorem resultByte_eq_zero {r : ResultWord} (hr : r.extractLsb' 8 56 = 0) {k : Fin 8} (hk : k ≠ 0) :
    resultByte r k = 0 := by
  have hpos : 0 < k.val := Fin.pos_iff_ne_zero.mpr hk
  refine BitVec.eq_of_getLsbD_eq fun j hj => ?_
  rw [getLsbD_resultByte r k hj, extractLsb'_high_eq_zero_iff.mp hr _ (by omega)]
  exact BitVec.getLsbD_zero.symm

theorem resultByte_zext64_zero (v : Byte) : resultByte (zext64 v) 0 = v := by
  refine BitVec.eq_of_getLsbD_eq fun j hj => ?_
  have hj' : j < 64 := by omega
  rw [getLsbD_resultByte _ 0 hj]
  simp [zext64, hj']

/-! ### The obligations -/

/-- Settles O25: a step that does not reset writes the table store only as the word it completes does,
and only GEN writes it. -/
theorem tableIsReadOnlyOutsideGenAndReset : Obligations.TableIsReadOnlyOutsideGenAndReset := by
  intro s t h hne
  rcases step_cases h with ⟨ht, -⟩ | ⟨-, -, rfl⟩ | ⟨w, hw, rfl⟩
  · exact .inl ht
  · exact absurd s.accept_table hne
  · rcases wordEffectOf_table_cases Config.fixed w s.accept.dropTick.releaseReset with
      htable | ⟨g, hg⟩
    · exact absurd (htable.trans s.accept_table) hne
    · exact .inr ⟨w, g, hw, hg⟩

/-- Settles O31: both runs end in the reset of the same block, with possibly different words still to be
issued. -/
theorem resetAbandonsTheCommandInFlight : Obligations.ResetAbandonsTheCommandInFlight := by
  intro s t u n ts ht hu
  obtain ⟨ws, hws⟩ := runSteps_accept_then_reset s n ts
  rw [hws] at ht
  rw [step_reset_cons] at hu
  cases ht
  cases hu
  exact ⟨rfl, rfl⟩

/-- Settles O38: `RESULT[63:8]` is 0 in the register and in every read, and FIN writes a zero-extended
byte. -/
theorem resultBytesAreLittleEndian : Obligations.ResultBytesAreLittleEndian := by
  refine ⟨fun r k j hj => getLsbD_resultByte r k hj, fun s k hs hk => ?_, fun s t h => ?_⟩
  · exact ⟨resultByte_eq_zero hs.result_high hk, resultByte_eq_zero (readResultOf_high hs) hk⟩
  · rw [exec_eq_effectOf] at h
    cases h
    rw [effectOf_fin_result, resultByte_zext64_zero]

/-- Settles O39: stores in canonical form that read alike are equal. -/
theorem tableWritesAreIndependent : Obligations.TableWritesAreIndependent :=
  fun _ m hm i _ u v => ⟨Memory.wf_write i v hm, m.read_write_self i v, m.read_write_of_ne v,
    Memory.write_write_self hm i u v, fun hij => Memory.write_comm hm hij u v⟩

/-- Settles O40: only GEN writes the table store, and filling a store twice is filling it once. -/
theorem readsAreIdempotentAndGenIsToo : Obligations.ReadsAreIdempotentAndGenIsToo := by
  simp only [Obligations.ReadsAreIdempotentAndGenIsToo, exec_eq_effectOf]
  refine ⟨fun i s t u ht hu => ?_, fun b s t ht => ?_, fun g s t u hs ht hu => ?_⟩
  · cases ht
    cases hu
    have htable : (effectOf Config.fixed (.trd i) s).table = s.table :=
      effectOf_table_of_ne_gen Config.fixed s nofun
    exact ⟨htable, by rw [effectOf_trd_result, effectOf_trd_result, htable]⟩
  · cases ht
    exact effectOf_table_of_ne_gen Config.fixed s nofun
  · cases ht
    cases hu
    simp only [effectOf_gen_table]
    exact Memory.fill_fill hs.table_wf _ _

/-- Settles O36: ready is quiescent, and then a read is of the register. -/
theorem quiescentReadsReturnTheRegisters : Obligations.QuiescentReadsReturnTheRegisters :=
  fun _ h => ⟨readResultOf_of_cmdReady h Config.fixed, readStatusOf_of_cmdReady h Config.fixed⟩

end Sys2Proof.Machine
end

section
/-! PROOFS. Encoding (30_encoding.md R60 to R69, R72): the decoder and the encoder on all words, how
many words are legal, and what the pseudo-instructions expand to. -/

namespace Sys2Proof.Machine

/-! ### The fields of a word, and its match and mask -/

/-- R61: a word is its three fields. -/
theorem fields_append (w : CmdWord) : opField w ++ rsvField w ++ imm8Field w = w := by
  ext k hk
  simp only [opField, rsvField, imm8Field, BitVec.getElem_append, BitVec.getElem_extractLsb']
  grind

/-- A word is what the mask 0xFF00 keeps of it and its `IMM8`. -/
theorem masked_or_imm8Field (w : CmdWord) : w &&& 0xFF00#16 ||| (imm8Field w).setWidth 16 = w := by
  have himm : (imm8Field w).setWidth 16 = w &&& 0x00FF#16 := by
    apply BitVec.eq_of_toNat_eq
    simp only [imm8Field, BitVec.toNat_and, BitVec.toNat_setWidth, BitVec.extractLsb'_toNat,
      Nat.shiftRight_zero]
    have hmod := Nat.and_two_pow_sub_one_eq_mod w.toNat 8
    simp only [Nat.reducePow, Nat.reduceSub, BitVec.reduceToNat] at hmod ⊢
    omega
  rw [himm, ← BitVec.and_or_distrib_left]
  exact BitVec.and_allOnes

/-- R62, R63: the words that match `m` under the mask 0xFF00, with operand `b`. -/
theorem masked_eq_and_imm8_iff {m w : CmdWord} (hm : m &&& 0xFF00#16 = m) (b : Byte) :
    w &&& 0xFF00#16 = m ∧ b = w.extractLsb' 0 8 ↔ w = m ||| b.setWidth 16 := by
  constructor
  · rintro ⟨rfl, rfl⟩
    exact (masked_or_imm8Field w).symm
  · rintro rfl
    have hmask : b.setWidth 16 &&& 0xFF00#16 = 0#16 := by
      revert b
      decide
    have himm : m.extractLsb' 0 8 = 0#8 := by
      rw [← hm, BitVec.extractLsb'_and]
      exact BitVec.and_zero
    constructor
    · rw [BitVec.and_or_distrib_right, hm, hmask, BitVec.or_zero]
    · rw [BitVec.extractLsb'_or, himm, BitVec.zero_or]
      revert b
      decide

/-- No word matches two match and mask pairs that differ on a bit both masks keep. -/
theorem not_matches_both {a b : CmdWord × CmdWord} (h : a.1 &&& b.2 ≠ b.1 &&& a.2) (w : CmdWord) :
    ¬(w &&& a.2 = a.1 ∧ w &&& b.2 = b.1) := by
  rintro ⟨ha, hb⟩
  apply h
  rw [← ha, ← hb, BitVec.and_assoc, BitVec.and_assoc, BitVec.and_comm a.2]

/-! ### The decoder and the encoder -/

/-- A word of a command with an operand, put together from its fields. -/
theorem encode_eq_of_fields {f : Byte → Instr} {op : BitVec 4}
    (hf : ∀ b, encode (f b) = op ++ 0#4 ++ b) {w : CmdWord} (hrsv : rsvField w = 0#4)
    (hop : opField w = op) : encode (f (imm8Field w)) = w := by
  rw [hf, ← hop, ← hrsv, fields_append]

/-- R69: a word that decodes to a command is that command's encoding. -/
theorem encode_of_decode {w : CmdWord} {i : Instr} (h : decode w = .command i) : encode i = w := by
  unfold decode at h
  split_ifs at h with hinit hfin hrsv hop hop hop hop <;> cases h
  · exact hinit.symm
  · exact hfin.symm
  all_goals exact encode_eq_of_fields (by decide) (not_not.mp hrsv) hop

/-- R69: the decoder answers a command exactly for its encoding. -/
theorem decode_eq_command_iff {w : CmdWord} {i : Instr} : decode w = .command i ↔ w = encode i :=
  ⟨fun h => (encode_of_decode h).symm, fun h => h ▸ decode_encode i⟩

theorem encode_injective : Function.Injective encode := fun i j h => by
  simpa [decode_encode] using congrArg decode h

/-- R64: every encoding is legal. -/
@[simp] theorem legal_encode (i : Instr) : legal (encode i) = true := by
  cases i with
  | init => exact Laws.EncodeLegal.init
  | updb b => exact Laws.EncodeLegal.updb b
  | updt b => exact Laws.EncodeLegal.updt b
  | fin => exact Laws.EncodeLegal.fin
  | gen g => exact Laws.EncodeLegal.gen g
  | trd j => exact Laws.EncodeLegal.trd j

/-- R64, R68: the legal words are those that decode to a command. -/
theorem legal_iff_exists_decode {w : CmdWord} : legal w = true ↔ ∃ i, decode w = .command i := by
  cases hw : decode w with
  | command i => simp [← encode_of_decode hw]
  | illegal v => simp [legal_eq_false_of_decode hw]

/-- R64: the formula. -/
theorem legal_iff {w : CmdWord} :
    legal w = true ↔ w = 0x1000#16 ∨ w = 0x4000#16 ∨ (rsvField w = 0#4 ∧
      (opField w = 2#4 ∨ opField w = 3#4 ∨ opField w = 5#4 ∨ opField w = 6#4)) := by
  simp [legal, rsvClear, opTakesByte, rsvField, opField, or_assoc]

/-- `OP` 0x0 and 0x7 to 0xF belong to no command. -/
theorem legal_eq_false_of_opField {w : CmdWord} (h : opField w = 0#4 ∨ 7#4 ≤ opField w) :
    legal w = false := by
  rw [← Bool.not_eq_true, legal_iff]
  rintro (rfl | rfl | ⟨-, hop | hop | hop | hop⟩)
  · exact absurd h (by decide)
  · exact absurd h (by decide)
  all_goals
    rw [hop] at h
    exact absurd h (by decide)

/-! ### Counting words -/

/-- The commands, each with its operand. -/
def instrEquiv : Instr ≃ (Unit ⊕ Unit) ⊕ (Byte ⊕ Byte) ⊕ (Byte ⊕ Byte) where
  toFun
    | .init => .inl (.inl ())
    | .fin => .inl (.inr ())
    | .updb b => .inr (.inl (.inl b))
    | .updt b => .inr (.inl (.inr b))
    | .gen g => .inr (.inr (.inl g))
    | .trd i => .inr (.inr (.inr i))
  invFun
    | .inl (.inl ()) => .init
    | .inl (.inr ()) => .fin
    | .inr (.inl (.inl b)) => .updb b
    | .inr (.inl (.inr b)) => .updt b
    | .inr (.inr (.inl g)) => .gen g
    | .inr (.inr (.inr i)) => .trd i
  left_inv i := by cases i <;> rfl
  right_inv x := by rcases x with (_ | _) | (_ | _) | (_ | _) <;> rfl

theorem card_bitVec (n : Nat) : Nat.card (BitVec n) = 2 ^ n := by
  rw [Nat.card_congr BitVec.equivFin.toEquiv, Nat.card_fin]

theorem card_instr : Nat.card Instr = 1026 := by
  have : Finite Byte := .of_equiv _ BitVec.equivFin.toEquiv.symm
  rw [Nat.card_congr instrEquiv]
  simp only [Nat.card_sum, Nat.card_unique, card_bitVec]
  norm_num

/-- R65: as many words decode to a command of a family as the family has operands. -/
theorem card_decode {α : Type} {f : α → Instr} (hf : Function.Injective f) :
    Nat.card {w : CmdWord // ∃ a, decode w = .command (f a)} = Nat.card α := by
  rw [← Nat.card_range_of_injective (encode_injective.comp hf)]
  refine Nat.card_congr (Equiv.subtypeEquivRight fun w => ?_)
  simp only [decode_eq_command_iff, Set.mem_range, Function.comp, eq_comm]

theorem card_decode_command (i : Instr) : Nat.card {w : CmdWord // decode w = .command i} = 1 := by
  have hsingle := card_decode (Function.injective_of_subsingleton fun _ : Unit => i)
  simpa using hsingle

theorem card_legal : Nat.card {w : CmdWord // legal w = true} = 1026 := by
  rw [← card_instr, ← card_decode Function.injective_id]
  exact Nat.card_congr (Equiv.subtypeEquivRight fun w => legal_iff_exists_decode)

/-- R65: the words that are not legal are the rest of the 65536. -/
theorem card_illegal : Nat.card {w : CmdWord // legal w = false} = 64510 := by
  have : Finite CmdWord := .of_equiv _ BitVec.equivFin.toEquiv.symm
  have hsum := Nat.card_congr (Equiv.sumCompl fun w : CmdWord => legal w = true)
  rw [Nat.card_sum, card_legal, card_bitVec] at hsum
  simp only [Bool.not_eq_true] at hsum
  omega

/-! ### The statements about words -/

/-- Settles O1: the decoder answers a command exactly for that command's encoding. -/
theorem encodingAndDecodingAreInverse : Obligations.EncodingAndDecodingAreInverse := by
  refine ⟨⟨rfl, rfl, fun _ => ⟨rfl, rfl, rfl, rfl⟩⟩, fun w hw => ?_, decode_encode⟩
  obtain ⟨i, hi⟩ := legal_iff_exists_decode.mp hw
  exact ⟨i, hi, encode_of_decode hi⟩

/-- Settles O2: two of the six pairs always differ on a bit both masks keep, and a legal word has the
one command it decodes to. -/
theorem legalWordsAreExactlyTheCommands : Obligations.LegalWordsAreExactlyTheCommands := by
  refine fun w => ⟨legal_iff, ?_, fun hw => ?_, decode_of_legal_eq_false⟩
  · exact List.Pairwise.imp (fun h => not_matches_both h w) (by decide)
  · obtain ⟨i, hi⟩ := legal_iff_exists_decode.mp hw
    exact ⟨i, hi, fun j hj => by simpa [hi, eq_comm] using hj⟩

/-- Settles O3: to match a pair under 0xFF00 with operand `b` is to be the encoding with that
operand. -/
theorem decodingFollowsMatchAndMask : Obligations.DecodingFollowsMatchAndMask := by
  refine fun w => ⟨decode_eq_command_iff, decode_eq_command_iff, fun b => ?_, fun b => ?_,
    fun g => ?_, fun i => ?_, fun hop => decode_of_legal_eq_false (legal_eq_false_of_opField hop)⟩
  all_goals
    rw [decode_eq_command_iff, masked_eq_and_imm8_iff (by decide)]
    rfl

/-- Settles O4: the words of a family are counted by its operands, the legal words by the commands. -/
theorem legalWordCounts : Obligations.LegalWordCounts := by
  have hbyte {f : Byte → Instr} (hf : Function.Injective f) :
      Nat.card {w : CmdWord // ∃ b, decode w = .command (f b)} = 256 :=
    (card_decode hf).trans (card_bitVec 8)
  exact ⟨card_legal, card_illegal, card_decode_command .init, card_decode_command .fin,
    hbyte fun _ _ => Instr.updb.inj, hbyte fun _ _ => Instr.updt.inj, hbyte fun _ _ => Instr.gen.inj,
    hbyte fun _ _ => Instr.trd.inj, by decide, by decide⟩

/-- Settles O5: ten fixed words. -/
theorem sampleWordsDecode : Obligations.SampleWordsDecode := by
  unfold Obligations.SampleWordsDecode
  decide

/-- Settles O54: the expansions are defined so. -/
theorem pseudoInstructionExpansions : Obligations.PseudoInstructionExpansions :=
  ⟨rfl, fun _ => ⟨rfl, rfl, rfl, rfl⟩⟩

end Sys2Proof.Machine
end

section
/-! PROOFS. The assembler and the disassembler (30_encoding.md R70, R71): what a line emits, what is
refused, and that the text of a word assembles to that word. -/

namespace Sys2Proof.Machine

/-! ### Texts in pieces -/

theorem splitAt_ne_nil (p : Char → Bool) (l : Text) : splitAt p l ≠ [] := by
  cases l with
  | nil => simp [splitAt]
  | cons c cs =>
    rw [splitAt]
    split
    · simp
    · split <;> simp

/-- A separator ends the piece before it. -/
theorem splitAt_cons_of_pos {p : Char → Bool} {c : Char} (hc : p c = true) (cs : Text) :
    splitAt p (c :: cs) = [] :: splitAt p cs := by
  rw [splitAt]
  split
  · next h => exact absurd h (splitAt_ne_nil p cs)
  · next h => rw [h, if_pos hc]

/-- A text with no separator is one piece. -/
theorem splitAt_of_forall {p : Char → Bool} {l : Text} (h : ∀ c ∈ l, p c = false) :
    splitAt p l = [l] := by
  induction l with
  | nil => rfl
  | cons c cs ih =>
    rw [List.forall_mem_cons] at h
    simp [splitAt, ih h.2, h.1]

/-! ### One line -/

theorem assembleLine_of_nil {l rest : Text} (h : lineParts l = ([], rest)) :
    assembleLine l = .ok [] := by
  simp only [assembleLine, h]

/-- R71: a line that begins with `.word` has one operand, the word. -/
theorem assembleLine_of_word {l rest : Text} (h : lineParts l = (wordDirective, rest)) :
    assembleLine l =
      (oneOperand 65535 (operandGroups rest)).map (fun n => [BitVec.ofNat 16 n]) := by
  simp only [assembleLine, h]
  rfl

/-- A line that begins with anything else is read as a mnemonic. -/
theorem assembleLine_of_mnemonic {l m rest : Text} (h : lineParts l = (m, rest)) (hm : m ≠ [])
    (hw : m ≠ wordDirective) :
    assembleLine l = assembleMnemonic (m.map upperChar) (operandGroups rest) := by
  cases m with
  | nil => exact absurd rfl hm
  | cons c cs => simp only [assembleLine, h, if_neg hw]

/-- `.word` is no mnemonic, in whatever case its letters are. -/
theorem assembleLine_of_upper_mem {l m rest : Text} {ms : List Text} (h : lineParts l = (m, rest))
    (hms : [] ∉ ms ∧ wordDirective.map upperChar ∉ ms) (hm : m.map upperChar ∈ ms) :
    assembleLine l = assembleMnemonic (m.map upperChar) (operandGroups rest) := by
  refine assembleLine_of_mnemonic h ?_ ?_
  · rintro rfl
    exact hms.1 hm
  · rintro rfl
    exact hms.2 hm

theorem operandGroups_of_blank {rest : Text} (h : rest.all isBlank = true) :
    operandGroups rest = [] :=
  if_pos h

theorem operandGroups_ne_nil {rest : Text} (h : rest.all isBlank = false) :
    operandGroups rest ≠ [] := by
  simp [operandGroups, h, splitAt_ne_nil]

/-! ### Mnemonics and operands -/

/-- INIT and FIN take no operand. -/
theorem assembleMnemonic_of_mem_noOperand {m : Text}
    (h : m ∈ [['I', 'N', 'I', 'T'], ['F', 'I', 'N']]) :
    ∃ is, ∀ gs, assembleMnemonic m gs = noOperand is gs := by
  simp only [List.mem_cons, List.not_mem_nil, or_false] at h
  rcases h with rfl | rfl
  · exact ⟨[.init], fun _ => rfl⟩
  · exact ⟨[.fin], fun _ => rfl⟩

/-- UPDB, UPDT, GEN and TRD take one byte. -/
theorem assembleMnemonic_of_mem_byteCommand {m : Text}
    (h : m ∈ [['U', 'P', 'D', 'B'], ['U', 'P', 'D', 'T'], ['G', 'E', 'N'], ['T', 'R', 'D']]) :
    ∃ f, ∀ gs, assembleMnemonic m gs = byteCommand f gs := by
  simp only [List.mem_cons, List.not_mem_nil, or_false] at h
  rcases h with rfl | rfl | rfl | rfl
  · exact ⟨.updb, fun _ => rfl⟩
  · exact ⟨.updt, fun _ => rfl⟩
  · exact ⟨.gen, fun _ => rfl⟩
  · exact ⟨.trd, fun _ => rfl⟩

theorem assembleMnemonic_of_notMem {m : Text}
    (h : m ∉ [['I', 'N', 'I', 'T'], ['F', 'I', 'N'], ['U', 'P', 'D', 'B'],
      ['U', 'P', 'D', 'T'], ['G', 'E', 'N'], ['T', 'R', 'D'], ['G', 'E', 'N', '0'], ['W', 'R', 'B'],
      ['W', 'R', 'T'], ['C', 'R', 'C', 'B'], ['C', 'R', 'C', 'T']]) (gs : List (List Text)) :
    assembleMnemonic m gs = .error .unknownMnemonic := by
  simp only [List.mem_cons, List.not_mem_nil, or_false, not_or] at h
  simp [assembleMnemonic, h]

theorem noOperand_of_ne_nil (is : List Instr) {gs : List (List Text)} (h : gs ≠ []) :
    noOperand is gs = .error .unexpectedOperand := by
  cases gs with
  | nil => exact absurd rfl h
  | cons g gs => rfl

theorem oneOperand_of_two_le (max : Nat) {gs : List (List Text)} (h : 2 ≤ gs.flatten.length) :
    oneOperand max gs = .error .tooManyOperands := by
  unfold oneOperand
  split
  · simp at h
  · simp at h
  · rfl

theorem readUpTo_of_le {max n : Nat} {t : Text} (ht : readNumber t = some n) (hn : n ≤ max) :
    readUpTo max t = .ok n := by
  simp [readUpTo, ht, hn]

theorem readUpTo_of_lt {max n : Nat} {t : Text} (ht : readNumber t = some n) (hn : max < n) :
    readUpTo max t = .error .operandRange := by
  simp [readUpTo, ht, hn]

theorem byteCommand_of_error (f : Byte → Instr) {gs : List (List Text)} {r : AsmReason}
    (h : oneOperand 255 gs = .error r) : byteCommand f gs = .error r := by
  rw [byteCommand, h]
  rfl

/-! ### What a mnemonic emits -/

/-- What is emitted, if anything, is legal words. -/
def EmitsLegal (r : Except AsmReason (List CmdWord)) : Prop :=
  ∀ ws, r = .ok ws → ∀ w ∈ ws, legal w = true

theorem EmitsLegal.ite {p : Prop} [Decidable p] {r q : Except AsmReason (List CmdWord)}
    (hr : EmitsLegal r) (hq : EmitsLegal q) : EmitsLegal (if p then r else q) := by
  split
  · exact hr
  · exact hq

theorem emitsLegal_error (e : AsmReason) : EmitsLegal (.error e) := nofun

theorem emitsLegal_map_encode (is : List Instr) : EmitsLegal (.ok (is.map encode)) := by
  intro ws h
  cases h
  simp

/-- Encodings of commands made from operands that were read. -/
theorem emitsLegal_map {α : Type} (e : Except AsmReason α) (f : α → List Instr) :
    EmitsLegal (e.map fun a => (f a).map encode) := by
  cases e with
  | error r => exact emitsLegal_error r
  | ok a => exact emitsLegal_map_encode (f a)

theorem noOperand_emitsLegal (is : List Instr) (gs : List (List Text)) :
    EmitsLegal (noOperand is gs) := by
  cases gs with
  | nil => exact emitsLegal_map_encode is
  | cons g gs => exact emitsLegal_error _

theorem byteCommand_emitsLegal (f : Byte → Instr) (gs : List (List Text)) :
    EmitsLegal (byteCommand f gs) :=
  emitsLegal_map _ fun n => [f (BitVec.ofNat 8 n)]

theorem listCommand_emitsLegal (f : List Byte → Pseudo) (gs : List (List Text)) :
    EmitsLegal (listCommand f gs) :=
  emitsLegal_map _ fun ds => (f ds).expand

/-- R71: a mnemonic, of a command or a pseudo-instruction, never emits an illegal word. -/
theorem assembleMnemonic_emitsLegal (m : Text) (gs : List (List Text)) :
    EmitsLegal (assembleMnemonic m gs) :=
  (noOperand_emitsLegal _ gs).ite <| (noOperand_emitsLegal _ gs).ite <|
  (byteCommand_emitsLegal _ gs).ite <| (byteCommand_emitsLegal _ gs).ite <|
  (byteCommand_emitsLegal _ gs).ite <| (byteCommand_emitsLegal _ gs).ite <|
  (noOperand_emitsLegal _ gs).ite <| (listCommand_emitsLegal _ gs).ite <|
  (listCommand_emitsLegal _ gs).ite <| (listCommand_emitsLegal _ gs).ite <|
  (listCommand_emitsLegal _ gs).ite <| emitsLegal_error _

/-! ### Sources of several lines -/

/-- R71: the first faulty line is the one a refusal names. -/
theorem assembleLines_of_first_faulty {l : Text} {r : AsmReason} (hl : assembleLine l = .error r)
    (ls : List Text) {good : List Text} (hgood : ∀ g ∈ good, ∃ ws, assembleLine g = .ok ws)
    (n : Nat) :
    assembleLines n (good ++ l :: ls) = .error ⟨n + good.length, r⟩ := by
  induction good generalizing n with
  | nil => simp [assembleLines, hl]
  | cons g gs ih =>
    obtain ⟨⟨ws, hws⟩, hgs⟩ := List.forall_mem_cons.mp hgood
    simp [assembleLines, hws, ih hgs, Except.map, Nat.add_assoc, Nat.add_comm 1]

/-- A source of one line. -/
theorem assemble_of_line {l : Text} {ws : List CmdWord} (hl : ∀ c ∈ l, (c == '\n') = false)
    (h : assembleLine l = .ok ws) : assemble l = .ok ws := by
  simp [assemble, splitAt_of_forall hl, assembleLines, h, Except.map]

/-! ### Hexadecimal numbers -/

theorem digitValue_hexDigit (n : BitVec 4) : digitValue (hexDigit n) = some n.toNat := by
  revert n
  decide

/-- Reading the digit printed for `d`. -/
@[simp] theorem readDigits_hexDigit (n : Nat) (d : BitVec 4) (cs : Text) :
    readDigits 16 n (hexDigit d :: cs) = readDigits 16 (n * 16 + d.toNat) cs := by
  simp [readDigits, digitValue_hexDigit, d.isLt]

theorem readDigits_nil (base n : Nat) : readDigits base n [] = some n := rfl

theorem readNumber_hex (c : Char) (cs : Text) :
    readNumber ('0' :: 'x' :: c :: cs) = readDigits 16 0 (c :: cs) := rfl

theorem readNumber_hexByte (b : Byte) : readNumber (hexByte b) = some b.toNat := by
  simp only [hexByte, readNumber_hex, readDigits_hexDigit, readDigits_nil, BitVec.extractLsb'_toNat,
    Nat.shiftRight_eq_div_pow, Option.some.injEq]
  omega

theorem readNumber_hexWord (w : CmdWord) : readNumber (hexWord w) = some w.toNat := by
  simp only [hexWord, readNumber_hex, readDigits_hexDigit, readDigits_nil, BitVec.extractLsb'_toNat,
    Nat.shiftRight_eq_div_pow, Option.some.injEq]
  omega

/-! ### The lines of the disassembler -/

/-- A character that separates nothing. -/
def isPlain (c : Char) : Bool := !isBlank c && c != ',' && c != ';' && c != '\n'

/-- A text that is one token of a line. -/
def isToken (t : Text) : Bool := !t.isEmpty && t.all isPlain

theorem isToken_iff {t : Text} : isToken t = true ↔
    t ≠ [] ∧ ∀ c ∈ t, isBlank c = false ∧ c ≠ ',' ∧ c ≠ ';' ∧ c ≠ '\n' := by
  simp [isToken, isPlain, and_assoc]

theorem isPlain_hexDigit (n : BitVec 4) : isPlain (hexDigit n) = true := by
  revert n
  decide

theorem isToken_hex {ds : Text} (h : ds.all isPlain = true) :
    isToken ('0' :: 'x' :: ds) = true := by
  rw [isToken, List.all_cons, List.all_cons, h]
  rfl

theorem isToken_hexByte (b : Byte) : isToken (hexByte b) = true :=
  isToken_hex (by simp [isPlain_hexDigit])

theorem isToken_hexWord (w : CmdWord) : isToken (hexWord w) = true :=
  isToken_hex (by simp [isPlain_hexDigit])

section TokenLine

variable {m t : Text} (hm : isToken m = true) (ht : isToken t = true)

include ht in
theorem operandGroups_of_token : operandGroups (' ' :: t) = [[t]] := by
  obtain ⟨hne, hplain⟩ := isToken_iff.mp ht
  have hcomma : ∀ c ∈ ' ' :: t, (c == ',') = false := by simpa using fun c hc => (hplain c hc).2.1
  have htokens : tokens (' ' :: t) = [t] := by
    rw [tokens, splitAt_cons_of_pos (by decide), splitAt_of_forall fun c hc => (hplain c hc).1]
    simp [hne]
  have hblank : (' ' :: t).all isBlank = false := by
    obtain ⟨c, hc⟩ := List.exists_mem_of_ne_nil t hne
    simpa using fun _ => ⟨c, hc, (hplain c hc).1⟩
  simp [operandGroups, hblank, splitAt_of_forall hcomma, htokens]

include hm ht

theorem lineParts_of_tokens : lineParts (m ++ ' ' :: t) = (m, ' ' :: t) := by
  have hcomment : ∀ c ∈ m ++ ' ' :: t, (c != ';') = true := by grind [isToken_iff]
  have hplain : ∀ c ∈ m, (!isBlank c) = true := by grind [isToken_iff]
  have hstart : (m ++ ' ' :: t).dropWhile isBlank = m ++ ' ' :: t := by
    cases m with
    | nil => cases hm
    | cons c cs => exact List.dropWhile_cons_of_neg (by simpa using hplain c)
  rw [lineParts, List.takeWhile_eq_self_iff.mpr hcomment, hstart, List.span_eq_takeWhile_dropWhile,
    List.takeWhile_append_of_pos hplain, List.dropWhile_append_of_pos hplain]
  simp [isBlank]

theorem assemble_of_tokens {ws : List CmdWord} (h : assembleLine (m ++ ' ' :: t) = .ok ws) :
    assemble (m ++ ' ' :: t) = .ok ws :=
  assemble_of_line (by grind [isToken_iff]) h

end TokenLine

/-- R70: a mnemonic with one byte as the disassembler prints it. -/
theorem assemble_byteCommand {m : Text} {f : Byte → Instr} (hm : isToken m = true)
    (hw : m ≠ wordDirective) (hf : assembleMnemonic (m.map upperChar) = byteCommand f) (b : Byte) :
    assemble (m ++ ' ' :: hexByte b) = .ok [encode (f b)] := by
  have ht := isToken_hexByte b
  have hb : readUpTo 255 (hexByte b) = .ok b.toNat :=
    readUpTo_of_le (readNumber_hexByte b) (Nat.le_of_lt_succ b.isLt)
  refine assemble_of_tokens hm ht ?_
  rw [assembleLine_of_mnemonic (lineParts_of_tokens hm ht) (isToken_iff.mp hm).1 hw, hf,
    operandGroups_of_token ht]
  simp [byteCommand, oneOperand, hb, Except.map]

/-- R71: the directive `.word` emits any word, legal or not. -/
theorem assemble_wordDirective (w : CmdWord) :
    assemble (wordDirective ++ ' ' :: hexWord w) = .ok [w] := by
  have ht := isToken_hexWord w
  have hw : readUpTo 65535 (hexWord w) = .ok w.toNat :=
    readUpTo_of_le (readNumber_hexWord w) (Nat.le_of_lt_succ w.isLt)
  refine assemble_of_tokens (by decide) ht ?_
  rw [assembleLine_of_word (lineParts_of_tokens (by decide) ht), operandGroups_of_token ht]
  simp [oneOperand, hw, Except.map]

/-- R70, R71: the line printed for a command assembles to its encoding. -/
theorem assemble_disassemble_of_command {w : CmdWord} {i : Instr} (h : decode w = .command i) :
    assemble (disassemble w) = .ok [encode i] := by
  simp only [disassemble, h]
  cases i with
  | init | fin => decide
  | updb b => exact assemble_byteCommand (m := ['U', 'P', 'D', 'B']) (by decide) (by decide) rfl b
  | updt b => exact assemble_byteCommand (m := ['U', 'P', 'D', 'T']) (by decide) (by decide) rfl b
  | gen g => exact assemble_byteCommand (m := ['G', 'E', 'N']) (by decide) (by decide) rfl g
  | trd j => exact assemble_byteCommand (m := ['T', 'R', 'D']) (by decide) (by decide) rfl j

/-! ### The statements about the assembler -/

/-- Settles O55: a command's line assembles to its encoding, `.word` gives an illegal word back. -/
theorem assemblingADisassembledWordGivesItBack :
    Obligations.AssemblingADisassembledWordGivesItBack := by
  intro w
  cases hw : decode w with
  | command i => rw [assemble_disassemble_of_command hw, encode_of_decode hw]
  | illegal v =>
    cases (decode_of_legal_eq_false (legal_eq_false_of_decode hw)).symm.trans hw
    simp only [disassemble, hw]
    exact assemble_wordDirective w

/-- Settles O56: a line that is not `.word` is empty or a mnemonic, which emits encodings of
commands. -/
theorem assemblerEmitsOnlyLegalWordsForMnemonics :
    Obligations.AssemblerEmitsOnlyLegalWordsForMnemonics := by
  intro l ws hword h
  rcases hl : lineParts l with ⟨m, rest⟩
  by_cases hm : m = []
  · subst hm
    cases (assembleLine_of_nil hl).symm.trans h
    exact List.forall_mem_nil _
  · rw [assembleLine_of_mnemonic hl hm (by simpa [hl] using hword)] at h
    exact assembleMnemonic_emitsLegal _ _ ws h

/-- Settles O57: a line is read as its mnemonic's operand form, and each form refuses by the count,
then by the range. -/
theorem assemblerRefusals : Obligations.AssemblerRefusals := by
  refine ⟨fun l m rest hl hm hw hmem => ?_, fun l m rest hl hmem hrest => ?_,
    fun l m rest hl hmem => ?_, fun n good ls l r hgood hl => ?_⟩
  · rw [assembleLine_of_mnemonic hl hm hw, assembleMnemonic_of_notMem hmem]
  · obtain ⟨is, his⟩ := assembleMnemonic_of_mem_noOperand hmem
    rw [assembleLine_of_upper_mem hl (by decide) hmem, his]
    exact noOperand_of_ne_nil is (operandGroups_ne_nil hrest)
  · obtain ⟨f, hf⟩ := assembleMnemonic_of_mem_byteCommand hmem
    rw [assembleLine_of_upper_mem hl (by decide) hmem, hf]
    refine ⟨fun hrest => ?_, fun t n hgs ht hn => ?_, fun htwo => ?_⟩
    · rw [operandGroups_of_blank hrest]
      rfl
    · rw [hgs]
      exact byteCommand_of_error f (readUpTo_of_lt ht hn)
    · exact byteCommand_of_error f (oneOperand_of_two_le 255 htwo)
  · exact assembleLines_of_first_faulty hl ls hgood n

end Sys2Proof.Machine
end

section
/-! PROOFS. The bitwise engine (40_bitwise_engine.md): `shift1`, `step8` and `bitwise` as functions, and
the command UPDB. -/

namespace Sys2Proof.Machine

/-! ### Linearity over XOR -/

/-- R86: the bits shifted out of `a` and `b` say how many times `p` is XORed in, and two times cancel. -/
theorem shift1_xor (a b p : Byte) : shift1 (a ^^^ b) p = shift1 a p ^^^ shift1 b p := by
  unfold shift1
  rw [BitVec.getLsbD_xor, BitVec.shiftLeft_xor_distrib]
  cases a.getLsbD 7 <;> cases b.getLsbD 7
  · rfl
  · exact BitVec.xor_assoc ..
  · change (a <<< 1 ^^^ b <<< 1) ^^^ p = (a <<< 1 ^^^ p) ^^^ b <<< 1
    ac_rfl
  · change a <<< 1 ^^^ b <<< 1 = (a <<< 1 ^^^ p) ^^^ (b <<< 1 ^^^ p)
    calc a <<< 1 ^^^ b <<< 1 = (a <<< 1 ^^^ b <<< 1) ^^^ (p ^^^ p) := by
          rw [BitVec.xor_self, BitVec.xor_zero]
      _ = (a <<< 1 ^^^ p) ^^^ (b <<< 1 ^^^ p) := by ac_rfl

theorem shiftTimes_xor (n : Nat) (a b p : Byte) :
    shiftTimes n (a ^^^ b) p = shiftTimes n a p ^^^ shiftTimes n b p := by
  induction n generalizing a b with
  | zero => rfl
  | succ n ih => simp only [shiftTimes, shift1_xor, ih]

/-- R86: `step8` is linear over XOR. -/
theorem step8_xor (a b p : Byte) : step8 (a ^^^ b) p = step8 a p ^^^ step8 b p :=
  shiftTimes_xor 8 a b p

@[simp] theorem shift1_zero (p : Byte) : shift1 0x00#8 p = 0x00#8 := rfl

@[simp] theorem shiftTimes_zero (n : Nat) (p : Byte) : shiftTimes n 0x00#8 p = 0x00#8 := by
  induction n with
  | zero => rfl
  | succ n ih => rw [shiftTimes, shift1_zero, ih]

@[simp] theorem step8_zero (p : Byte) : step8 0x00#8 p = 0x00#8 :=
  shiftTimes_zero 8 p

/-! ### The polynomial 0 -/

theorem shift1_poly_zero (c : Byte) : shift1 c 0x00#8 = c <<< 1 := by
  unfold shift1
  rw [BitVec.xor_zero, ite_self]

theorem shiftTimes_poly_zero (n : Nat) (c : Byte) : shiftTimes n c 0x00#8 = c <<< n := by
  induction n generalizing c with
  | zero => exact (BitVec.shiftLeft_zero c).symm
  | succ n ih => rw [shiftTimes, shift1_poly_zero, ih, ← BitVec.shiftLeft_add, Nat.add_comm]

/-- R88: eight shifts leave nothing of a byte. -/
@[simp] theorem step8_poly_zero (c : Byte) : step8 c 0x00#8 = 0x00#8 := by
  rw [step8, shiftTimes_poly_zero, BitVec.shiftLeft_eq_zero (Nat.le_refl 8)]

/-! ### Sequences of bytes -/

/-- R87: the bytes behind are folded into what the bytes before leave. -/
theorem bitwise_append (p v : Byte) (ds es : List Byte) :
    bitwise p v (ds ++ es) = bitwise p (bitwise p v ds) es := by
  induction ds generalizing v with
  | nil => rfl
  | cons d ds ih => exact ih (step8 (v ^^^ d) p)

theorem bitwise_concat (p v : Byte) (ds : List Byte) (b : Byte) :
    bitwise p v (ds ++ [b]) = step8 (bitwise p v ds ^^^ b) p :=
  bitwise_append p v ds [b]

/-- R88: the last byte's step gives 0, whatever came before it. -/
theorem bitwise_poly_zero (v : Byte) {ds : List Byte} (h : ds ≠ []) :
    bitwise 0x00#8 v ds = 0x00#8 := by
  rw [← List.dropLast_append_getLast h, bitwise_concat, step8_poly_zero]

/-! ### UPDB -/

/-- R83: the effect of UPDB. -/
theorem effectOf_updb (cfg : Config) (b : Byte) (s : State) :
    effectOf cfg (.updb b) s =
      { s with acc := step8 (s.acc ^^^ b) cfg.poly, cix := s.cix + 1, inFlight := none } := rfl

theorem effectOf_updb_acc (cfg : Config) (b : Byte) (s : State) :
    (effectOf cfg (.updb b) s).acc = step8 (s.acc ^^^ b) cfg.poly := rfl

/-- R64: a word whose `RSV` is not 0 is illegal, whatever its `OP`. -/
theorem legal_eq_false_of_rsvField {w : CmdWord} (h : rsvField w ≠ 0#4) : legal w = false := by
  rw [← Bool.not_eq_true, legal_iff]
  rintro (rfl | rfl | ⟨hrsv, -⟩)
  · exact h rfl
  · exact h rfl
  · exact h hrsv

/-- R61: `RSV` of a word put together from `m`, a byte moved up to `RSV` and a byte in `IMM8`. -/
theorem rsvField_or_shift_or (m : CmdWord) (r b : Byte) :
    rsvField (m ||| (r.setWidth 16 <<< 8) ||| b.setWidth 16) = rsvField m ||| r.setWidth 4 := by
  ext k hk
  have hword : 8 + k < 16 := by omega
  simp [rsvField, hword]

/-- A byte below 16 keeps its value in 4 bits. -/
theorem setWidth_four_ne_zero {r : Byte} (hr : r ≠ 0) (hlt : r.toNat < 16) : r.setWidth 4 ≠ 0#4 := by
  intro h
  have hzero : r.toNat % 16 = 0 := by simpa using congrArg BitVec.toNat h
  rw [Nat.mod_eq_of_lt hlt] at hzero
  exact hr (BitVec.eq_of_toNat_eq hzero)

/-! ### The obligations -/

/-- Settles O42: `shift1` is linear by the bits it shifts out, `step8` by induction on the shifts. -/
theorem step8IsLinear : Obligations.Step8IsLinear :=
  ⟨shift1_xor, step8_xor, fun p => ⟨shift1_zero p, step8_zero p⟩⟩

/-- Settles O43, by induction on the bytes before. -/
theorem bitwiseOfConcatenation : Obligations.BitwiseOfConcatenation :=
  bitwise_append

/-- Settles O44: with polynomial 0, `step8` only shifts, eight times. -/
theorem polynomialZeroGivesZero : Obligations.PolynomialZeroGivesZero :=
  ⟨step8_poly_zero, fun v _ h => bitwise_poly_zero v h, fun _ => rfl⟩

/-- Settles O12: the effect of UPDB and its words, with the corner cases from `step8` of 0 and from
polynomial 0. -/
theorem updbFoldsAByteWithStep8 : Obligations.UpdbFoldsAByteWithStep8 := by
  refine ⟨fun b s => by rw [exec_eq_effectOf, effectOf_updb], fun b => decode_encode (.updb b),
    fun b r hr hlt => ?_, fun cfg s => ?_, fun cfg b s hx => ?_, fun cfg b s hp => ?_,
    fun cfg s hp ha => ?_⟩
  · apply decode_of_legal_eq_false
    apply legal_eq_false_of_rsvField
    have hop : rsvField 0x2000#16 = 0#4 := rfl
    rw [rsvField_or_shift_or, hop, BitVec.zero_or]
    exact setWidth_four_ne_zero hr hlt
  · rw [effectOf_updb_acc, BitVec.xor_zero]
  · rw [effectOf_updb_acc, hx, step8_zero]
  · rw [effectOf_updb_acc, hp, step8_poly_zero]
  · rw [effectOf_updb_acc, hp, ha]
    decide

end Sys2Proof.Machine
end

section
/-! PROOFS. The lookup-table engine (41_lookup_table_engine.md): the generated table as a function, when
it is valid, the command UPDT, and the two engines on a valid table. -/

namespace Sys2Proof.Machine

/-! ### The generated table -/

/-- R95: an entry of a generated table is one step of the bitwise engine. -/
theorem gen_eq_step8 (p g i : Byte) : gen p g i = step8 (g ^^^ i) p := rfl

theorem gen_eq_step8_xor (p g i : Byte) : gen p g i = step8 g p ^^^ step8 i p :=
  step8_xor g i p

theorem gen_zero (p i : Byte) : gen p 0x00#8 i = step8 i p := by
  rw [gen_eq_step8, BitVec.zero_xor]

/-- R95: the initial value shifts every entry by its own step. -/
theorem gen_eq_gen_zero_iff (p g : Byte) :
    (∀ i, gen p g i = gen p 0x00#8 i) ↔ step8 g p = 0x00#8 := by
  simp only [gen_eq_step8_xor, step8_zero, BitVec.zero_xor]
  constructor
  · intro h
    simpa using h 0x00#8
  · intro h i
    rw [h, BitVec.zero_xor]

/-! ### An odd polynomial -/

/-- The bit shifted out comes back as bit 0 when `p` has one. -/
theorem getLsbD_zero_shift1 (c p : Byte) :
    (shift1 c p).getLsbD 0 = (c.getLsbD 7 && p.getLsbD 0) := by
  unfold shift1
  cases c.getLsbD 7 <;> simp

/-- A shift by an odd polynomial loses nothing: the top bit of `c` stays as bit 0, and the others move
up by one. -/
theorem shift1_eq_zero_iff {p : Byte} (hp : p.getLsbD 0 = true) (c : Byte) :
    shift1 c p = 0x00#8 ↔ c = 0x00#8 := by
  refine ⟨fun h => ?_, fun h => by rw [h, shift1_zero]⟩
  have htop : c.getLsbD 7 = false := by
    have hbit := getLsbD_zero_shift1 c p
    rwa [h, hp, Bool.and_true, BitVec.getLsbD_zero, eq_comm] at hbit
  have hrest : c <<< 1 = 0x00#8 := by
    rwa [shift1, htop, if_neg Bool.false_ne_true] at h
  ext k hk
  rcases Nat.eq_or_lt_of_le (Nat.le_of_lt_succ hk) with rfl | hk
  · simpa using htop
  · have hbit := congrArg (BitVec.getLsbD · (k + 1)) hrest
    simpa [Nat.succ_lt_succ hk] using hbit

theorem shiftTimes_eq_zero_iff {p : Byte} (hp : p.getLsbD 0 = true) (n : Nat) (c : Byte) :
    shiftTimes n c p = 0x00#8 ↔ c = 0x00#8 := by
  induction n generalizing c with
  | zero => rfl
  | succ n ih => rw [shiftTimes, ih, shift1_eq_zero_iff hp]

/-- R95: with an odd polynomial only 0 steps to 0. -/
theorem step8_eq_zero_iff {p : Byte} (hp : p.getLsbD 0 = true) (c : Byte) :
    step8 c p = 0x00#8 ↔ c = 0x00#8 :=
  shiftTimes_eq_zero_iff hp 8 c

/-! ### A valid table store -/

/-- R102: a table store is valid when every entry is the step of its index. -/
theorem validTable_iff {cfg : Config} {m : Memory} :
    ValidTable cfg m ↔ ∀ i, m.read cfg i = step8 i cfg.poly := by
  simp only [ValidTable, gen_zero]

theorem ValidTable.read_eq {cfg : Config} {m : Memory} (h : ValidTable cfg m) (i : Byte) :
    m.read cfg i = step8 i cfg.poly :=
  validTable_iff.mp h i

/-- Of the parameters, only `TABLE_RESET` enters a read of the table store. -/
theorem Memory.read_congr_tableReset {c d : Config} (h : c.tableReset = d.tableReset) (m : Memory)
    (i : Byte) : m.read c i = m.read d i := by
  induction m with
  | nil => simp only [Memory.read, Config.tableResetAt, h]
  | cons a m ih => simp only [Memory.read, ih]

/-! ### UPDT -/

/-- R91: the effect of UPDT. -/
theorem effectOf_updt (cfg : Config) (b : Byte) (s : State) :
    effectOf cfg (.updt b) s =
      { s with acc := s.table.read cfg (s.acc ^^^ b), cix := s.cix + 1, inFlight := none } := rfl

theorem effectOf_updt_acc (cfg : Config) (b : Byte) (s : State) :
    (effectOf cfg (.updt b) s).acc = s.table.read cfg (s.acc ^^^ b) := rfl

/-- R93: on a valid table UPDT does what UPDB does. -/
theorem effectOf_updt_of_validTable {cfg : Config} {s : State} (h : ValidTable cfg s.table)
    (b : Byte) : effectOf cfg (.updt b) s = effectOf cfg (.updb b) s := by
  rw [effectOf_updt, effectOf_updb, h.read_eq]

/-- R94: engines that agree on every state with table store `m` force it to be valid, since `ACC` = i and
the byte 0x00 compare entry i with the step of i. -/
theorem validTable_of_engines_agree {cfg : Config} {m : Memory}
    (h : ∀ (s : State) (b : Byte), s.table = m →
      effectOf cfg (.updt b) s = effectOf cfg (.updb b) s) : ValidTable cfg m := by
  refine validTable_iff.mpr fun i => ?_
  have hacc := congrArg State.acc (h { State.reset with acc := i, table := m } 0x00#8 rfl)
  simpa only [effectOf_updt_acc, effectOf_updb_acc, BitVec.xor_zero] using hacc

/-- R93: the engines agree on every sequence of bytes. -/
theorem tablecrc_gen_zero (p v : Byte) (ds : List Byte) :
    tablecrc v (gen p 0x00#8) ds = bitwise p v ds := by
  induction ds generalizing v with
  | nil => rfl
  | cons d ds ih => rw [tablecrc, bitwise, gen_zero, ih]

/-! ### Both engines in one sequence -/

/-- UPDB of a byte marked true, UPDT of one marked false. -/
def engineCommand (c : Bool × Byte) : Instr := if c.1 then .updb c.2 else .updt c.2

/-- R93: on a valid table it does not matter which engine folds a byte. -/
theorem effectOf_engineCommand {cfg : Config} {s : State} (h : ValidTable cfg s.table)
    (c : Bool × Byte) : effectOf cfg (engineCommand c) s = effectOf cfg (.updb c.2) s := by
  obtain ⟨_ | _, b⟩ := c
  · exact effectOf_updt_of_validTable h b
  · rfl

/-- R96: each command folds its byte as the bitwise engine does and leaves the table store valid. -/
theorem execAll_map_engineCommand (l : List (Bool × Byte)) {s : State}
    (h : ValidTable Config.fixed s.table) :
    ∃ t, execAll (l.map engineCommand) s = .next t ∧
      t.acc = bitwise Config.fixed.poly s.acc (l.map Prod.snd) ∧
      t.result = s.result ∧ t.err = s.err ∧ t.table = s.table ∧ t.cix = s.cix + l.length := by
  induction l generalizing s with
  | nil => exact ⟨s, rfl, rfl, rfl, rfl, rfl, rfl⟩
  | cons c l ih =>
    obtain ⟨t, hrun, hacc, hresult, herr, htable, hcix⟩ :=
      ih (s := effectOf Config.fixed (.updb c.2) s) h
    refine ⟨t, ?_, hacc, hresult, herr, htable, ?_⟩
    · rw [List.map_cons, execAll_cons, effectOf_engineCommand h, hrun]
    · obtain ⟨-, hone, -⟩ := effectOf_frame Config.fixed (.updb c.2) s
      rw [hcix, hone, List.length_cons]
      omega

/-! ### The obligations -/

/-- Settles O13: the effect of UPDT, with the corner cases from a read of entry 0, and the example from
the step of its index. -/
theorem updtLooksUpTheTable : Obligations.UpdtLooksUpTheTable := by
  refine ⟨fun b s => by rw [exec_eq_effectOf, effectOf_updt, State.tableAt],
    fun b => decode_encode (.updt b), fun cfg b s hx => ?_, fun cfg b s hv hx => ?_,
    fun c d b s hr => ?_, fun cfg s hp hv ha => ?_⟩
  · rw [effectOf_updt_acc, hx]
  · rw [effectOf_updt_acc, hx, hv.read_eq, step8_zero]
  · rw [effectOf_updt, effectOf_updt, Memory.read_congr_tableReset hr]
  · rw [effectOf_updt_acc, hv.read_eq, hp, ha]
    decide

/-- Settles O45: every entry of a valid table is the bitwise step of its index. -/
theorem enginesAgreeOnAValidTable : Obligations.EnginesAgreeOnAValidTable := by
  refine ⟨fun cfg s b hv => ⟨effectOf_updt_of_validTable hv b, ?_⟩, fun s b hv => ?_,
    tablecrc_gen_zero⟩
  · rw [effectOf_updt_of_validTable hv, effectOf_updb]
  · rw [exec_eq_effectOf, exec_eq_effectOf, effectOf_updt_of_validTable hv]

/-- Settles O46: from `ACC` = i on the byte 0x00 UPDT gives entry i and UPDB the step of i. -/
theorem enginesAgreeExactlyOnValidTables : Obligations.EnginesAgreeExactlyOnValidTables := by
  refine fun cfg m => ⟨⟨validTable_of_engines_agree, ?_⟩, ?_⟩
  · rintro hv s b rfl
    exact effectOf_updt_of_validTable hv b
  · rintro s i rfl rfl hne
    rw [effectOf_updt_acc, effectOf_updb_acc, BitVec.xor_zero]
    exact ⟨rfl, rfl, hne⟩

/-- Settles O47: by linearity the initial value shifts every entry by its own step, and an odd
polynomial steps only 0 to 0. -/
theorem whenAGeneratedTableIsValid : Obligations.WhenAGeneratedTableIsValid := by
  refine ⟨fun p g i => ⟨gen_eq_step8 p g i, gen_eq_step8_xor p g i⟩, gen_eq_gen_zero_iff, step8_zero,
    fun p g hp => step8_eq_zero_iff hp g, fun g i => ?_, by decide, by decide, by decide⟩
  rw [gen_eq_step8, step8_poly_zero]

/-- Settles O48, by induction on the sequence: every command of it has the effect of UPDB. -/
theorem enginesMixFreelyOnAValidTable : Obligations.EnginesMixFreelyOnAValidTable :=
  fun _ l hv => execAll_map_engineCommand l hv

end Sys2Proof.Machine
end

section
/-! PROOFS. The table generator (42_table_generator.md): what GEN and TRD do, and what fixes a valid
table. -/

namespace Sys2Proof.Machine

/-! ### GEN and TRD -/

/-- R101: GEN completes, and leaves alone everything but the table store. -/
theorem effectOf_gen_frame (cfg : Config) (g : Byte) (s : State) :
    effectOf cfg (.gen g) s =
      { s with table := (effectOf cfg (.gen g) s).table, cix := s.cix + 1, inFlight := none } := rfl

/-- R101: after GEN g the table store is `gen(POLY, g)`, whatever it held. -/
@[simp] theorem read_effectOf_gen_table (cfg : Config) (g i : Byte) (s : State) :
    (effectOf cfg (.gen g) s).table.read cfg i = gen cfg.poly g i := by
  rw [effectOf_gen_table, Memory.read_fill, gen_eq_step8]

/-- R101: GEN g makes the table valid exactly when g steps to 0 (R95). -/
theorem validTable_effectOf_gen_iff (cfg : Config) (g : Byte) (s : State) :
    ValidTable cfg (effectOf cfg (.gen g) s).table ↔ step8 g cfg.poly = 0x00#8 := by
  simp only [ValidTable, read_effectOf_gen_table]
  exact gen_eq_gen_zero_iff cfg.poly g

/-- R103: the effect of TRD. -/
theorem effectOf_trd (cfg : Config) (i : Byte) (s : State) :
    effectOf cfg (.trd i) s =
      { s with result := zext64 (s.table.read cfg i), cix := s.cix + 1, inFlight := none } := rfl

/-! ### Tables linear over XOR -/

/-- The table is linear over XOR. -/
def XorLinear (t : Byte → Byte) : Prop := ∀ a b, t (a ^^^ b) = t a ^^^ t b

/-- R105: a valid table is linear, because `step8` is (R86). -/
theorem xorLinear_gen_zero (p : Byte) : XorLinear (gen p 0x00#8) := fun a b => by
  simp only [gen_zero, step8_xor]

theorem gen_eq_gen_zero (p g i : Byte) : gen p g i = gen p 0x00#8 (g ^^^ i) := by
  rw [gen_zero, gen_eq_step8]

theorem XorLinear.map_zero {t : Byte → Byte} (ht : XorLinear t) : t 0x00#8 = 0x00#8 := by
  simpa using ht 0x00#8 0x00#8

/-- Of a byte whose top set bit is bit `n`, XOR with that bit leaves only bits below `n`. -/
theorem getLsbD_xor_top_bit {n : Nat} {i : Byte} (hbit : i.getLsbD n = true)
    (hi : ∀ k, n + 1 ≤ k → i.getLsbD k = false) {k : Nat} (hk : n ≤ k) :
    (i ^^^ 0x01#8 <<< n).getLsbD k = false := by
  have hn : n < 8 := BitVec.lt_of_getLsbD hbit
  rw [BitVec.getLsbD_xor, ← BitVec.twoPow_eq, BitVec.getLsbD_twoPow]
  rcases Nat.eq_or_lt_of_le hk with rfl | hk
  · simp [hbit, hn]
  · simp [hi k hk, Nat.ne_of_lt hk]

/-- R105: linear tables that agree on the first `n` powers of two agree on every index below `2 ^ n`,
by induction on `n`: an index with bit `n` set is the XOR of that power and an index below it. -/
theorem XorLinear.eq_of_bits_below {t u : Byte → Byte} (ht : XorLinear t) (hu : XorLinear u)
    {n : Nat} (hpow : ∀ k, k < n → t (0x01#8 <<< k) = u (0x01#8 <<< k)) {i : Byte}
    (hi : ∀ k, n ≤ k → i.getLsbD k = false) : t i = u i := by
  induction n generalizing i with
  | zero =>
    obtain rfl : i = 0x00#8 := BitVec.eq_of_getLsbD_eq fun k _ => by simp [hi k (Nat.zero_le k)]
    rw [ht.map_zero, hu.map_zero]
  | succ n ih =>
    have hbelow {j : Byte} (hj : ∀ k, n ≤ k → j.getLsbD k = false) : t j = u j :=
      ih (fun k hk => hpow k (Nat.lt_succ_of_lt hk)) hj
    cases hbit : i.getLsbD n with
    | false =>
      refine hbelow fun k hk => ?_
      rcases Nat.eq_or_lt_of_le hk with rfl | hk
      · exact hbit
      · exact hi k hk
    | true =>
      have hsplit : i = (i ^^^ 0x01#8 <<< n) ^^^ 0x01#8 <<< n := by
        rw [BitVec.xor_assoc, BitVec.xor_self, BitVec.xor_zero]
      have hrest : t (i ^^^ 0x01#8 <<< n) = u (i ^^^ 0x01#8 <<< n) :=
        hbelow fun k hk => getLsbD_xor_top_bit hbit hi hk
      rw [hsplit, ht, hu, hrest, hpow n (Nat.lt_succ_self n)]

/-- R105: a linear table is fixed by its eight entries at the powers of two. -/
theorem XorLinear.eq_of_powers {t u : Byte → Byte} (ht : XorLinear t) (hu : XorLinear u)
    (hpow : ∀ k, k < 8 → t (0x01#8 <<< k) = u (0x01#8 <<< k)) (i : Byte) : t i = u i :=
  ht.eq_of_bits_below hu hpow fun k hk => BitVec.getLsbD_of_ge i k hk

/-! ### The obligations -/

/-- Settles O15: after GEN g every entry reads as `gen(POLY, g)`, and the rest follows from that
function. -/
theorem genFillsTheTable : Obligations.GenFillsTheTable := by
  refine ⟨fun g s => ⟨_, exec_eq_effectOf (.gen g) s, fun i => ?_,
      effectOf_gen_frame Config.fixed g s⟩,
    fun g => decode_encode (.gen g), validTable_effectOf_gen_iff, fun cfg s => ?_,
    fun cfg g i s hp => ?_, fun cfg g i s t => ?_, fun cfg s hp => ?_⟩
  · rw [State.tableAt, read_effectOf_gen_table]
    exact ⟨gen_eq_step8 _ g i, rfl⟩
  · exact (validTable_effectOf_gen_iff cfg 0x00#8 s).mpr (step8_zero cfg.poly)
  · rw [read_effectOf_gen_table, hp, gen_eq_step8, step8_poly_zero]
  · rw [read_effectOf_gen_table, read_effectOf_gen_table]
  · simp only [read_effectOf_gen_table, hp]
    decide

/-- Settles O16: TRD writes `RESULT` alone, with the entry it reads; after reset that is the entry of
`TABLE_RESET`, and on a valid table the step of the index. -/
theorem trdReadsOneEntry : Obligations.TrdReadsOneEntry := by
  refine ⟨fun i s => ?_, fun i => decode_encode (.trd i), fun i s t h => ?_, fun i t h => ?_,
    fun i s t h => ?_, fun cfg s hp hv => ?_⟩
  · rw [exec_eq_effectOf, effectOf_trd, zext64, State.tableAt]
  · rw [exec_eq_effectOf] at h
    cases h
    rw [effectOf_trd_result, extractLsb'_zext64]
  · rw [exec_eq_effectOf] at h
    cases h
    have hread : State.reset.table.read Config.fixed i = Config.fixed.tableResetAt i :=
      (State.atReset_resetOf Config.fixed).table i
    rw [effectOf_trd_result, hread, zext64]
  · rw [execAll_cons, execAll_cons] at h
    cases h
    rw [effectOf_fin_result, effectOf_trd, zext64]
  · rw [effectOf_trd_result, hv.read_eq, hp]
    decide

/-- Settles O49: `gen(p, 0)` is linear because `step8` is, and a linear table is fixed by its entries at
the powers of two. -/
theorem validTablesAreLinear : Obligations.ValidTablesAreLinear :=
  ⟨xorLinear_gen_zero, gen_eq_gen_zero, fun p _ ht =>
    XorLinear.eq_of_powers ht (xorLinear_gen_zero p)⟩

end Sys2Proof.Machine
end

section
/-! PROOFS. The accumulator (43_accumulator.md): INIT and FIN, a write with either engine, and
one-shot compute as a sequence of commands and as words on the command port. -/

namespace Sys2Proof.Machine

/-! ### INIT and FIN -/

/-- R110: the effect of INIT. -/
theorem effectOf_init (cfg : Config) (s : State) :
    effectOf cfg .init s = { s with acc := cfg.init, cix := s.cix + 1, inFlight := none } := rfl

/-- R111: the effect of FIN. -/
theorem effectOf_fin (cfg : Config) (s : State) :
    effectOf cfg .fin s =
      { s with result := zext64 s.acc, cix := s.cix + 1, inFlight := none } := rfl

/-- R61: `OP` does not see a byte put in `IMM8`. -/
theorem opField_or_imm8 (m : CmdWord) (x : Byte) : opField (m ||| x.setWidth 16) = opField m := by
  ext k hk
  have hbyte : x.getLsbD (12 + k) = false := BitVec.getLsbD_of_ge x _ (by omega)
  simp [opField, hbyte]

/-- R61: `IMM8` is where the byte is put, beside what stood there. -/
theorem imm8Field_or_imm8 (m : CmdWord) (x : Byte) :
    imm8Field (m ||| x.setWidth 16) = imm8Field m ||| x := by
  ext k hk
  have hword : k < 16 := by omega
  simp [imm8Field, hword, BitVec.getLsbD_eq_getElem hk]

/-- R63: the commands of `OP` 1 and 4 have no operand, so a byte in `IMM8` other than 0 makes their
word illegal. -/
theorem legal_or_imm8_eq_false {m : CmdWord} (hop : opField m = 1#4 ∨ opField m = 4#4) {x : Byte}
    (hx : x ≠ 0) : legal (m ||| x.setWidth 16) = false := by
  have himm : imm8Field (m ||| x.setWidth 16) ≠ 0#8 := by
    rw [imm8Field_or_imm8, Ne, BitVec.or_eq_zero_iff]
    exact fun h => hx h.2
  rw [← Bool.not_eq_true, legal_iff, opField_or_imm8]
  rintro (hw | hw | ⟨-, hop'⟩)
  · exact himm (hw ▸ rfl)
  · exact himm (hw ▸ rfl)
  · rcases hop with h | h <;> simp [h] at hop'

/-! ### A write, with either engine -/

/-- While the table store is `m`, the commands `c` fold their byte into `ACC` through the table `g`,
and write nothing else. -/
def FoldsThrough (c : Byte → Instr) (m : Memory) (g : Byte → Byte) : Prop :=
  ∀ (b : Byte) (s : State), s.table = m → effectOf Config.fixed (c b) s =
    { s with acc := g (s.acc ^^^ b), cix := s.cix + 1, inFlight := none }

/-- R83: UPDB folds as through the generated table, whatever the table store holds. -/
theorem foldsThrough_updb (m : Memory) : FoldsThrough .updb m (gen Config.fixed.poly 0x00#8) :=
  fun b s _ => by rw [effectOf_updb, gen_zero]

/-- R91: UPDT folds through the table store. -/
theorem foldsThrough_updt (s : State) : FoldsThrough .updt s.table s.tableAt :=
  fun b t ht => by rw [effectOf_updt, ht, State.tableAt]

/-- R112: splitting the bytes into chunks gives the same commands. -/
theorem flatMap_map_eq_map_flatten (c : Byte → Instr) (chunks : List (List Byte)) :
    (chunks.flatMap fun ds => ds.map c) = chunks.flatten.map c := by
  rw [List.map_flatten, List.flatMap_def]

/-- The state after `n` commands that end with a FIN on `ACC` = `v`: `v` in `ACC` and `RESULT`, the
commands counted, nothing in flight, all else as in `s`. -/
def State.publish (s : State) (v : Byte) (n : Nat) : State :=
  { s with acc := v, result := zext64 v, cix := s.cix + n, inFlight := none }

@[simp] theorem State.publish_acc (s : State) (v : Byte) (n : Nat) : (s.publish v n).acc = v := rfl

@[simp] theorem State.publish_result (s : State) (v : Byte) (n : Nat) :
    (s.publish v n).result = zext64 v := rfl

section Write

variable {c : Byte → Instr} {g : Byte → Byte} {s : State}

/-- R113: a write leaves the value of its bytes in `ACC`, and counts them. What is in flight is left
open, since a write of no byte is no command and completes nothing (R112). -/
theorem execAll_write (h : FoldsThrough c s.table g) (ds : List Byte) :
    ∃ f, execAll (ds.map c) s =
      .next { s with acc := tablecrc s.acc g ds, cix := s.cix + ds.length, inFlight := f } := by
  induction ds generalizing s with
  | nil => exact ⟨s.inFlight, rfl⟩
  | cons d ds ih =>
    have hone := h d s rfl
    have hcount : s.cix + 1 + ds.length = s.cix + (d :: ds).length := by
      rw [List.length_cons, Nat.add_assoc, Nat.add_comm 1]
    obtain ⟨f, hrun⟩ := ih
      (s := { s with acc := g (s.acc ^^^ d), cix := s.cix + 1, inFlight := none }) h
    exact ⟨f, by rw [List.map_cons, execAll_cons, hone, hrun, hcount]; rfl⟩

/-- R111, R113: FIN after a write publishes the value the write leaves. -/
theorem execAll_write_fin (h : FoldsThrough c s.table g) (ds : List Byte) :
    execAll (ds.map c ++ [.fin]) s =
      .next (s.publish (tablecrc s.acc g ds) (ds.length + 1)) := by
  obtain ⟨f, hrun⟩ := execAll_write h ds
  rw [execAll_append hrun, execAll_cons, effectOf_fin]
  rfl

/-- R114: one-shot compute publishes the value of its bytes from `INIT`, whatever `ACC` held. -/
theorem execAll_oneShot (h : FoldsThrough c s.table g) (ds : List Byte) :
    execAll (.init :: (ds.map c ++ [.fin])) s =
      .next (s.publish (tablecrc Config.fixed.init g ds) (ds.length + 2)) := by
  have hcount : s.cix + 1 + (ds.length + 1) = s.cix + (ds.length + 2) := by omega
  have hwrite := execAll_write_fin
    (s := { s with acc := Config.fixed.init, cix := s.cix + 1, inFlight := none }) h ds
  rw [execAll_cons, effectOf_init, hwrite, State.publish, State.publish, hcount]

end Write

/-- R114: one-shot compute with the bitwise engine publishes the value of the bitwise engine. -/
theorem execAll_crcb (ds : List Byte) (s : State) :
    ∃ t, execAll (Pseudo.crcb ds).expand s = .next t ∧
      t.acc = bitwise Config.fixed.poly Config.fixed.init ds ∧
      t.result = (bitwise Config.fixed.poly Config.fixed.init ds).setWidth 64 := by
  refine ⟨_, execAll_oneShot (foldsThrough_updb s.table) ds, ?_, ?_⟩
  · rw [State.publish_acc, tablecrc_gen_zero]
  · rw [State.publish_result, tablecrc_gen_zero, zext64]

/-! ### Commands on the command port -/

/-- A run step takes the offered word whether or not reset is still shown asserted (log 11). -/
theorem step_releaseReset_of_offered {s : State} {w : CmdWord} {ws : List CmdWord}
    (ht : s.tick = .run) (hf : s.inFlight = none) (hc : s.commands = w :: ws) :
    step s = step s.releaseReset :=
  (step_of_offered ht hf hc).trans (step_of_offered (s := s.releaseReset) ht hf hc).symm

/-- Steps from states with the same next step are the same run. -/
theorem runSteps_succ_congr {s t : State} (h : step s = step t) (k : Nat) :
    runSteps (k + 1) s = runSteps (k + 1) t := by
  simp only [runSteps, h]

/-- R33, R50: with no tick listed, as many steps as commands offered run the commands in order; the
first of them releases reset, should the state still show it asserted (log 11). -/
theorem runSteps_of_offered (i : Instr) (is : List Instr) {ws : List CmdWord} {s : State}
    (ht : s.ticks = []) (hf : s.inFlight = none) (hc : s.commands = (i :: is).map encode ++ ws) :
    runSteps (is.length + 1) s = execAll (i :: is) { s with rst := false, commands := ws } := by
  have hrun : s.tick = .run := by rw [State.tick, ht, List.headD_nil]
  calc runSteps (is.length + 1) s
      = runSteps (is.length + 1) s.releaseReset :=
        runSteps_succ_congr (step_releaseReset_of_offered hrun hf hc) _
    _ = runSteps ((i :: is).map encode).length s.releaseReset := by
        rw [List.length_map, List.length_cons]
    _ = runWords ((i :: is).map encode) { s with rst := false, commands := ws } :=
        runSteps_of_quiescent _ ws (s := s.releaseReset) ht hf rfl hc
    _ = execAll (i :: is) { s with rst := false, commands := ws } := runWords_map_encode _ _

/-- R114: the words of a one-shot compute on the command port. -/
theorem runSteps_oneShot {c : Byte → Instr} {g : Byte → Byte} {s : State}
    (h : FoldsThrough c s.table g) {ds : List Byte} {ws : List CmdWord} (ht : s.ticks = [])
    (hf : s.inFlight = none)
    (hc : s.commands = (Instr.init :: (ds.map c ++ [.fin])).map encode ++ ws) :
    runSteps (ds.length + 2) s =
      .next (({ s with rst := false, commands := ws } : State).publish
        (tablecrc Config.fixed.init g ds) (ds.length + 2)) := by
  have hlength : (ds.map c ++ [Instr.fin]).length = ds.length + 1 := by
    rw [List.length_append, List.length_map, List.length_singleton]
  have hrun := runSteps_of_offered _ _ ht hf hc
  rw [hlength, execAll_oneShot (s := { s with rst := false, commands := ws }) h] at hrun
  exact hrun

/-! ### The obligations -/

/-- Settles O11: the effect of INIT and its words; after reset `ACC` already holds `INIT`. -/
theorem initReseedsTheAccumulator : Obligations.InitReseedsTheAccumulator := by
  refine ⟨fun s => ?_, decode_encode .init, fun x hx => ?_, ?_, fun cfg s hi _ => ?_⟩
  · rw [exec_eq_effectOf, effectOf_init]
  · exact decode_of_legal_eq_false (legal_or_imm8_eq_false (.inl rfl) hx)
  · have hacc : State.reset.acc = Config.fixed.init := (State.atReset_resetOf Config.fixed).acc
    rw [exec_eq_effectOf, effectOf_init, ← hacc]
    rfl
  · rw [effectOf_init, hi]

/-- Settles O14: the effect of FIN and its words; FIN leaves the `ACC` it publishes. -/
theorem finPublishesTheChecksum : Obligations.FinPublishesTheChecksum := by
  refine ⟨fun s => ?_, decode_encode .fin, fun x hx => ?_, fun s t h => ?_, fun s t u ht hu => ?_,
    fun s t ha h => ?_⟩
  · rw [exec_eq_effectOf, effectOf_fin, zext64]
  · exact decode_of_legal_eq_false (legal_or_imm8_eq_false (.inr rfl) hx)
  · rw [exec_eq_effectOf] at h
    cases h
    exact extractLsb'_zext64 s.acc
  · rw [exec_eq_effectOf] at ht hu
    cases ht
    cases hu
    rw [effectOf_fin_result, effectOf_fin]
  · rw [exec_eq_effectOf] at h
    cases h
    rw [effectOf_fin, ha]
    exact ⟨rfl, rfl⟩

/-- Settles O50: the chunks are the same commands as the whole input, and each command folds its
byte. -/
theorem incrementalEqualsBatch : Obligations.IncrementalEqualsBatch := by
  intro chunks s
  obtain ⟨f, hwrb⟩ := execAll_write (foldsThrough_updb s.table) chunks.flatten
  obtain ⟨f', hwrt⟩ := execAll_write (foldsThrough_updt s) chunks.flatten
  exact ⟨⟨congrArg (execAll · s) (flatMap_map_eq_map_flatten .updb chunks), _, hwrb,
      tablecrc_gen_zero ..⟩,
    congrArg (execAll · s) (flatMap_map_eq_map_flatten .updt chunks), _, hwrt, rfl⟩

/-- Settles O51: the words run as INIT, the write and FIN; on a valid table the table store is the
generated table. -/
theorem oneShotComputeThroughThePort : Obligations.OneShotComputeThroughThePort := by
  refine ⟨fun ds ws s ht hf hc => ?_, fun ds ws s ht hf hv hc => ?_⟩
  · refine ⟨_, runSteps_oneShot (foldsThrough_updb s.table) ht hf hc, ?_, rfl, rfl, rfl, rfl⟩
    rw [State.publish_result, tablecrc_gen_zero, zext64]
  · have hgen : s.tableAt = gen Config.fixed.poly 0x00#8 := funext hv
    refine ⟨_, runSteps_oneShot (foldsThrough_updt s) ht hf hc, rfl, ?_, rfl, rfl, rfl, rfl⟩
    rw [State.publish_result, hgen, tablecrc_gen_zero, zext64]

/-- Settles O53: the second write continues from the `ACC` the first FIN left. -/
theorem finishIsReentrant : Obligations.FinishIsReentrant := by
  intro ds es s
  obtain ⟨t, hfirst, hacc, hresult⟩ := execAll_crcb ds s
  have hsecond := execAll_write_fin (foldsThrough_updb t.table) es
  refine ⟨t, _, hfirst, hresult, hsecond, (execAll_append hfirst _).trans hsecond, ?_⟩
  rw [State.publish_result, hacc, tablecrc_gen_zero, bitwise_append, zext64]

/-- Settles O52: one-shot compute of no byte. -/
theorem emptyInputGivesInit : Obligations.EmptyInputGivesInit := by
  intro s
  obtain ⟨t, hrun, hacc, hresult⟩ := execAll_crcb [] s
  exact ⟨t, hrun, hresult, hacc⟩

end Sys2Proof.Machine
end

section
/-! PROOFS. Exceptions (60_exceptions.md): which words raise IllegalCommand and what it does, a run with
no illegal word, and the block between commands. -/

namespace Sys2Proof.Machine

/-! ### IllegalCommand -/

theorem runWord_of_illegal {w v : CmdWord} (h : decode w = .illegal v) (s : State) :
    runWord w s = .next (s.raiseIllegalCommand v) := by
  simp only [runWord, h]

/-- R68: the word ILLEGAL names is the word decoded. -/
theorem eq_of_decode_eq_illegal {w v : CmdWord} (h : decode w = .illegal v) : v = w := by
  rw [decode_of_legal_eq_false (legal_eq_false_of_decode h)] at h
  cases h
  rfl

/-- R131: a step that completes an illegal word, once the word is accepted. -/
theorem step_of_legal_eq_false {s : State} {w : CmdWord} (ht : s.tick = .run)
    (hf : s.accept.inFlight = some w) (hw : legal w = false) :
    step s = .next { s.accept with
      err := true, cix := s.cix + 1, inFlight := none, rst := false, ticks := s.ticks.tail } := by
  rw [step_of_run ht hf, runWord_eq_wordEffectOf, wordEffectOf_of_legal_eq_false hw,
    ← s.accept_cix, ← s.accept_ticks]
  rfl

/-- R25: `STATUS[7:1]` is the same in any two states. -/
theorem State.getLsbD_status_congr {s t : State} {k : Nat} (hk : 1 ≤ k) :
    t.status.getLsbD k = s.status.getLsbD k := by
  simp [Nat.ne_of_gt hk]

/-! ### A run with no illegal word -/

/-- R33: acceptance moves a word from the port into flight and brings in no other. -/
theorem State.OnlyLegalWords.after_accept {s : State} (h : s.OnlyLegalWords) :
    s.accept.OnlyLegalWords := by
  rcases s.accept_cases with ⟨w, ws, -, hc, ha⟩ | ⟨-, ha⟩
  · obtain ⟨hw, hws⟩ := List.forall_mem_cons.mp (hc ▸ h.2)
    rw [ha]
    exact ⟨by rintro _ ⟨⟩; exact hw, hws⟩
  · rwa [ha]

/-- With none in flight, only the words still to be issued are to be legal. -/
theorem State.onlyLegalWords_of_inFlight_eq_none {s : State} (hf : s.inFlight = none)
    (hc : ∀ w ∈ s.commands, legal w = true) : s.OnlyLegalWords :=
  ⟨by simp [hf], hc⟩

/-! ### No command -/

theorem State.accept_of_commands_eq_nil {s : State} (hc : s.commands = []) : s.accept = s := by
  rcases s.accept_cases with ⟨w, ws, -, hoffered, -⟩ | ⟨-, ha⟩
  · simp [hc] at hoffered
  · exact ha

/-- No step completes a word when acceptance leaves none in flight. -/
theorem State.wordToRun_eq_none_of_accept_inFlight {s : State} (hf : s.accept.inFlight = none) :
    s.wordToRun = none :=
  Option.eq_none_iff_forall_ne_some.mpr fun _ hw =>
    nomatch hf.symm.trans (State.wordToRun_eq_some_iff.mp hw).2

/-! ### The obligations -/

/-- Settles O18: a word that decodes to ILLEGAL is run as the exception, and every command is an effect
that leaves `ERR`. -/
theorem onlyIllegalWordsRaise : Obligations.OnlyIllegalWordsRaise :=
  ⟨fun _ _ s h => ⟨runWord_of_illegal h s, eq_of_decode_eq_illegal h⟩,
    fun i s => ⟨_, exec_eq_effectOf i s, (effectOf_frame Config.fixed i s).1⟩⟩

/-- Settles O19: in flight, acceptance takes nothing; offered, it takes the illegal word. -/
theorem illegalWordSetsErrAndNothingElse : Obligations.IllegalWordSetsErrAndNothingElse := by
  refine ⟨fun s w ht hf hw => ?_, fun s w ws ht hf hc hw => ?_, fun _ _ _ => rfl⟩
  · have ha := State.accept_of_inFlight hf
    have hstep := step_of_legal_eq_false ht (ha.symm ▸ hf) hw
    rw [ha] at hstep
    exact ⟨_, hstep, rfl, fun _ => State.getLsbD_status_congr, rfl⟩
  · have ha := State.accept_of_offered hf hc
    have hstep := step_of_legal_eq_false ht (by rw [ha]) hw
    rw [ha] at hstep
    exact ⟨_, hstep, rfl, fun _ => State.getLsbD_status_congr, by rw [hf]⟩

/-- Settles O21, by what a step can do: the words left after it were among those before, and a legal
word leaves `ERR`. -/
theorem legalWordsKeepTheRunClean : Obligations.LegalWordsKeepTheRunClean := by
  intro s t hs hclean h
  rcases step_cases h with ⟨-, rfl⟩ | ⟨-, -, rfl⟩ | ⟨w, hw, rfl⟩
  · exact ⟨State.onlyLegalWords_of_inFlight_eq_none rfl hs.2, rfl⟩
  · exact ⟨hs.after_accept, s.accept_err.trans hclean⟩
  · obtain ⟨hinFlight, hcommands⟩ := hs.after_accept
    have hlegal : legal w = true := hinFlight w (State.wordToRun_eq_some_iff.mp hw).2
    obtain ⟨-, hnone, -, hport, -⟩ :=
      wordEffectOf_frame Config.fixed w s.accept.dropTick.releaseReset
    refine ⟨State.onlyLegalWords_of_inFlight_eq_none hnone (hport ▸ hcommands), ?_⟩
    rw [State.Clean, wordEffectOf_err, hlegal, Bool.not_true, Bool.or_false]
    exact s.accept_err.trans hclean

/-- Settles O10: acceptance takes nothing, so no word is completed. -/
theorem stateIsHeldBetweenCommands : Obligations.StateIsHeldBetweenCommands := by
  intro s ht hf hc
  have ha := State.accept_of_commands_eq_nil hc
  rw [step_of_wordToRun_eq_none ht (State.wordToRun_eq_none_of_accept_inFlight (ha.symm ▸ hf)), ha]
  rfl

end Sys2Proof.Machine
end

section
/-! PROOFS. Reset and hazards (70_reset_and_hazards.md): what a reset sets and its release keeps, host
reads while a command is in flight, and GEN seen by the command behind it. -/

namespace Sys2Proof.Machine

/-! ### Reset and its release -/

/-- R33, R151: on an accept tick the offered word is put in flight and reset is released, with nothing
of the block written. -/
theorem step_accept_of_offered {s : State} {w : CmdWord} {ws : List CmdWord} (ht : s.tick = .accept)
    (hf : s.inFlight = none) (hc : s.commands = w :: ws) :
    step s = .next
      { s with rst := false, ticks := s.ticks.tail, inFlight := some w, commands := ws } := by
  rw [step_of_accept ht, State.accept_of_offered hf hc]
  rfl

/-! ### Host reads while a command is in flight -/

/-- No command reads the ticks. -/
theorem effectOf_ticks_update (cfg : Config) (i : Instr) (s : State) (ts : List Tick) :
    effectOf cfg i { s with ticks := ts } = { effectOf cfg i s with ticks := ts } := by
  cases i <;> rfl

/-- No word reads the ticks. -/
theorem wordEffectOf_ticks_update (cfg : Config) (w : CmdWord) (s : State) (ts : List Tick) :
    wordEffectOf cfg w { s with ticks := ts } = { wordEffectOf cfg w s with ticks := ts } := by
  unfold wordEffectOf
  cases decode w with
  | command i => exact effectOf_ticks_update cfg i s ts
  | illegal v => rfl

/-- With a command in flight and no tick listed, a step is the completion a host read looks ahead to. -/
theorem step_ticks_nil_of_inFlight {s : State} {w : CmdWord} (hr : s.rst = false)
    (hf : s.inFlight = some w) :
    step { s with ticks := [] } = .next { completionOf Config.fixed s with ticks := [] } := by
  have hreleased : ({ s with ticks := [], rst := false } : State) = { s with ticks := [] } := by
    rw [hr]
  calc step { s with ticks := [] }
      = runWord w { s with ticks := [], rst := false } :=
        step_of_inFlight (s := { s with ticks := [] }) rfl hf
    _ = .next { completionOf Config.fixed s with ticks := [] } := by
        rw [hreleased, runWord_eq_wordEffectOf, wordEffectOf_ticks_update,
          completionOf_of_inFlight hf]

/-- R156: while a command is in flight a read of `RESULT` mixes the register before and after it. -/
theorem readResultOf_of_inFlight {s : State} {w : CmdWord} (hr : s.rst = false)
    (hf : s.inFlight = some w) (cfg : Config) :
    readResultOf cfg s =
      (mixBits s.freeRead s.result (completionOf cfg s).result, s.countDraw) := by
  simp [readResultOf, hr, hf]

/-- R156: while a command is in flight a read of `STATUS` mixes the register before and after it. -/
theorem readStatusOf_of_inFlight {s : State} {w : CmdWord} (hr : s.rst = false)
    (hf : s.inFlight = some w) (cfg : Config) :
    readStatusOf cfg s =
      (mixBits (s.freeRead.setWidth 8) s.status (completionOf cfg s).status, s.countDraw) := by
  simp [readStatusOf, hr, hf]

/-- Each bit of a mix is the old or the new one. -/
theorem getLsbD_mixBits_cases {n : Nat} (mask old new : BitVec n) (k : Nat) :
    (mixBits mask old new).getLsbD k = old.getLsbD k ∨
      (mixBits mask old new).getLsbD k = new.getLsbD k := by
  rw [getLsbD_mixBits]
  split
  · exact .inr rfl
  · exact .inl rfl

/-- R25: two values of `STATUS` differ in bit 0 at most, so a mix of them is one of them. -/
theorem mixBits_status (mask : Byte) (s t : State) :
    mixBits mask s.status t.status = if mask.getLsbD 0 then t.status else s.status := by
  refine BitVec.eq_of_getLsbD_eq fun k _ => ?_
  rw [getLsbD_mixBits, apply_ite (BitVec.getLsbD · k)]
  cases k with
  | zero => rfl
  | succ k => rw [State.getLsbD_status_congr (s := s) k.succ_pos, ite_self, ite_self]

/-! ### The obligations -/

/-- Settles O37: the state after the command is the one the read looks ahead to, a mixed bit is one of
the two it mixes, and of `STATUS` only one bit can differ. -/
theorem readsInFlightAreOldOrNewPerBit : Obligations.ReadsInFlightAreOldOrNewPerBit := by
  intro s t w hr hf h
  rw [step_ticks_nil_of_inFlight hr hf] at h
  cases h
  rw [readResult, readResultOf_of_inFlight hr hf, readStatus, readStatusOf_of_inFlight hr hf,
    mixBits_status]
  exact ⟨getLsbD_mixBits_cases s.freeRead s.result _, (ite_eq_or_eq _ _ _).symm, rfl, rfl⟩

/-- Settles O29: the reset step is at the reset values; `ERR` is sticky (O20) and an entry that reads
differently is a different store (O25). -/
theorem resetSetsEveryPieceOfState : Obligations.ResetSetsEveryPieceOfState := by
  refine ⟨fun s ht => ?_, fun s t h => (errIsSticky s t h).2.1, fun s t h ⟨i, hi⟩ => ?_⟩
  · obtain ⟨hacc, hresult, herr, htable, hcix, hinFlight⟩ :=
      s.dropTick.atReset_resetBlock Config.fixed
    exact ⟨_, step_of_reset ht, State.cmdReady_eq_false_of_rst rfl, hacc, hresult, herr, htable, hcix,
      hinFlight, rfl⟩
  · have hne : t.table ≠ s.table := fun htable => hi (by rw [State.tableAt, htable, State.tableAt])
    exact tableIsReadOnlyOutsideGenAndReset s t h hne

/-- Settles O30: while reset is asserted nothing is in flight and `cix` is 0, so a step that releases it
holds the state, or takes the offered word into it. -/
theorem releaseOfResetKeepsTheState : Obligations.ReleaseOfResetKeepsTheState := by
  refine ⟨fun s t ht h => ?_, fun s hs hr ht hc => ?_, fun s w ws hs hr ht hc => ?_⟩
  · rw [step_of_reset ht] at h
    cases h
    exact ⟨rfl, rfl, State.cmdReady_eq_false_of_rst rfl⟩
  · have hf := (hs.in_reset hr).inFlight
    exact ⟨_, stateIsHeldBetweenCommands s ht hf hc, (State.cmdReady_iff _).mpr ⟨rfl, hf⟩, rfl⟩
  · obtain ⟨-, -, -, -, hcix, hf⟩ := hs.in_reset hr
    exact ⟨_, step_accept_of_offered ht hf hc, hcix, rfl⟩

/-- Settles O41: after GEN g the table store reads as `gen(POLY, g)`, and `ACC` is as before. -/
theorem genIsSeenByTheNextCommand : Obligations.GenIsSeenByTheNextCommand := by
  intro g i b s
  simp only [execAll_cons]
  refine ⟨⟨_, rfl, ?_⟩, ⟨_, rfl, ?_⟩⟩
  · rw [effectOf_trd_result, read_effectOf_gen_table, gen_eq_step8, zext64]
  · rw [effectOf_updt_acc, read_effectOf_gen_table, gen_eq_step8, effectOf_gen_frame]

end Sys2Proof.Machine
end
